-- ==== Sys2Proof/Word.lean ====
section
/-! DEFINITION. The word types of the A85 block (spec/00_scope.md R7, R9) and the names of its two units. -/

namespace Sys2Proof

/-- A byte, or a character code: 8 bits (R7, R9). -/
abbrev Byte := BitVec 8

/-- One word on a port: bit 8 is `eos`, bits 7:0 are `data` (R60, R61). -/
abbrev Symbol := BitVec 9

/-- The width of `enc.acc` and `dec.acc` (R21, R25). -/
abbrev Word := BitVec 32

/-- The two units of the block, which share no state (R1, R20). -/
inductive Agent where
  | enc
  | dec
  deriving DecidableEq, Repr, Inhabited

end Sys2Proof
end

