-- ==== Sys2Proof/Config.lean ====
section
/-! DEFINITION. The constants of the format, which no model may take as arguments (spec/00_scope.md R6, R7), and the
model's one free value. -/

namespace Sys2Proof.Config

/-- `RADIX`: the number base of the text side (R6). -/
@[simp] abbrev radix : Nat := 85

/-- `GROUP_BYTES`: bytes in a full binary group (R6). -/
@[simp] abbrev groupBytes : Nat := 4

/-- `GROUP_CHARS`: characters in a full text group (R6). -/
@[simp] abbrev groupChars : Nat := 5

/-- `2 ^ WORD_BITS`: the first value that no group has (R6, R113; conflict C1). -/
@[simp] abbrev limit : Nat := 2 ^ 32

/-- `CH_FIRST`: the character `!` of digit 0 (R6). -/
@[simp] abbrev chFirst : Nat := 33

/-- `CH_LAST`: the character `u` of digit 84 (R6). -/
@[simp] abbrev chLast : Nat := 117

/-- `PAD_BYTE`: the pad of a partial binary group (R6). -/
@[simp] abbrev padByte : Byte := 0#8

/-- `PAD_DIGIT`: the pad of a partial text group (R6). -/
@[simp] abbrev padDigit : Nat := 84

/-- `CH_Z`: the shortcut character `z`, code 122 (R6, R7; decision D8, log entry 9). -/
@[simp] abbrev chZ : Byte := 0x7A#8

/-- `MIN_PARTIAL_CHARS`: the fewest characters in a final text group (R6). -/
@[simp] abbrev minPartialChars : Nat := 2

/-- FREE VALUE (log entry 4, DESIGN CHOICE): which unit takes the next step when both have a symbol waiting and the
agenda names neither. The spec fixes no order between the units (R52); it is applied to `State.tick`. -/
opaque turn : Nat → Agent

end Sys2Proof.Config
end

