-- ==== Sys2Proof/Machine/Operands.lean ====
section
/-! DEFINITION. The constant tables `CHR`, `VAL`, `CLASS` and the two radix converters as pure functions
(spec/30_encoding.md R63 to R68, R76, R77; 40_encoder.md R90 to R94; 41_decoder.md R110 to R112). Arithmetic is over
unbounded natural numbers, as the rules have it (00_scope.md R10). -/

namespace Sys2Proof.Machine

/-! ### The tables -/

/-- `CHR[d] = 33 + d`, for a digit 0 to 84 (R65, R66). -/
def chr (d : Nat) : Byte := BitVec.ofNat 8 (Config.chFirst + d)

/-- The four classes of characters (R68). -/
inductive CharClass where
  | ws
  | digit
  | z
  | bad
  deriving DecidableEq, Repr

/-- The whitespace set: tab, line feed, carriage return, space (R6, R68; code points by D8, log entry 9). -/
def wsCodes : List Byte := [0x09#8, 0x0A#8, 0x0D#8, 0x20#8]

/-- `CLASS[c]` (R68): everything that is neither whitespace, nor in `!`..`u`, nor `z`, is BAD. -/
def charClass (c : Byte) : CharClass :=
  if c ∈ wsCodes then .ws
  else if Config.chFirst ≤ c.toNat ∧ c.toNat ≤ Config.chLast then .digit
  else if c = Config.chZ then .z
  else .bad

/-- `VAL[c]`: the digit `c - 33` of an alphabet character; it has no value for any other character (R67; U5). -/
def val (c : Byte) : Option Nat :=
  if charClass c = .digit then some (c.toNat - Config.chFirst) else none

/-! ### Bytes to characters -/

/-- The big-endian value of a byte sequence, the first byte most significant (R21, R41). -/
def beValue (bs : List Byte) : Nat := bs.foldl (fun a b => a * 256 + b.toNat) 0

/-- `pack(bs)`: the bytes in the most significant places of a 32-bit value, the other places zero (R76, R90). -/
def pack (bs : List Byte) : Nat := beValue bs * 256 ^ (Config.groupBytes - bs.length)

/-- `digits(v)`: the five base-85 digits of `v`, most significant first (R63, R91). -/
def digits (v : Nat) : List Nat :=
  [v / Config.radix ^ 4 % Config.radix, v / Config.radix ^ 3 % Config.radix, v / Config.radix ^ 2 % Config.radix,
    v / Config.radix % Config.radix, v % Config.radix]

/-- `chars(v)`: the digits through `CHR` (R92). -/
def chars (v : Nat) : List Byte := (digits v).map chr

/-- `enc_full(v)`: the output of a full group (R93). -/
def encFull (v : Nat) : List Byte := if v = 0 then [Config.chZ] else chars v

/-- `enc_partial(n, v)`: the output of a final group of `n` bytes, `n` in 1 to 3 (R94). -/
def encPartial (n v : Nat) : List Byte := (chars v).take (n + 1)

/-! ### Characters to bytes -/

/-- `value(ds)`: the base-85 value of a digit sequence, most significant first (R110). -/
def value (ds : List Nat) : Nat := ds.foldl (fun a d => a * Config.radix + d) 0

/-- The value of a group whose `k` digits have value `acc`, after padding with digit 84 to five digits: the sum
`acc * 85^(5-k) + (85^(5-k) - 1)` (R77, R111, R118). -/
def padTo (k acc : Nat) : Nat :=
  acc * Config.radix ^ (Config.groupChars - k) + (Config.radix ^ (Config.groupChars - k) - 1)

/-- `padded(ds)` (R111). -/
def padded (ds : List Nat) : Nat := padTo ds.length (value ds)

/-- `bytes(t)`: the four bytes of a 32-bit value, most significant first (R63, R112). -/
def bytesOf (t : Nat) : List Byte :=
  [BitVec.ofNat 8 (t / 2 ^ 24), BitVec.ofNat 8 (t / 2 ^ 16), BitVec.ofNat 8 (t / 2 ^ 8), BitVec.ofNat 8 t]

end Sys2Proof.Machine
end

