-- ==== Sys2Proof/Syntax.lean ====
section
/-! DEFINITION. The seven operations of the block (spec/30_encoding.md R69, R70, R82): one constructor for each
mnemonic of spec/opcode_table.json, whose 28 rows are bit patterns of these seven (R71; log entry 10). -/

namespace Sys2Proof

/-- An operation: what an input symbol selects; it plays the part of an instruction (00_scope.md, glossary). -/
inductive Instr where
  /-- ENC.BYTE: accept one data byte (R95). -/
  | encByte (b : Byte)
  /-- ENC.END: end of the byte message; the data bits of the symbol are ignored (R96). -/
  | encEnd
  /-- DEC.WS: skip the whitespace character `c` (R114). -/
  | decWs (c : Byte)
  /-- DEC.DIGIT: accept the alphabet character `c` (R115). -/
  | decDigit (c : Byte)
  /-- DEC.Z: the shortcut character (R116). -/
  | decZ
  /-- DEC.BAD: the malformed character `c` (R117). -/
  | decBad (c : Byte)
  /-- DEC.END: end of the text message; the data bits of the symbol are ignored (R118). -/
  | decEnd
  deriving DecidableEq, Repr

/-- The unit on whose port the operation arrives (R69, R70). -/
def Instr.agent : Instr → Agent
  | .encByte _ => .enc
  | .encEnd => .enc
  | .decWs _ => .dec
  | .decDigit _ => .dec
  | .decZ => .dec
  | .decBad _ => .dec
  | .decEnd => .dec

end Sys2Proof
end

