-- ==== Sys2Proof/WellFormed.lean ====
section
/-! DEFINITION. Which operations the ports can carry: the character of a decoder operation has the class that the
operation is selected by (spec/30_encoding.md R68, R70). -/

namespace Sys2Proof

/-- The operand of `i` is one that the decoder can give it. -/
def Instr.wellFormed : Instr → Bool
  | .encByte _ => true
  | .encEnd => true
  | .decWs c => Machine.charClass c == .ws
  | .decDigit c => Machine.charClass c == .digit
  | .decZ => true
  | .decBad c => Machine.charClass c == .bad
  | .decEnd => true

end Sys2Proof
end

