-- ==== Sys2Proof/Decode.lean ====
section
/-! DEFINITION. Operation decode on the two input ports (spec/30_encoding.md R60, R69, R70), the encoder of the same
words, and the opcode table's patterns as data (R71). -/

namespace Sys2Proof

open Machine (CharClass charClass)

/-- The field `eos` of a symbol: bit 8 (R60). -/
def eos (w : Symbol) : Bool := w.getLsbD 8

/-- The field `data` of a symbol: bits 7:0 (R60). -/
def dataBits (w : Symbol) : Byte := w.setWidth 8

/-- What DEC does with a data character, by its class (R70): the pseudo-operation DEC.CHAR of R83. -/
def decChar (c : Byte) : Instr :=
  match charClass c with
  | .ws => .decWs c
  | .digit => .decDigit c
  | .z => .decZ
  | .bad => .decBad c

/-- Operation decode: total on every 9-bit word of either port (R69, R70). -/
def decode (u : Agent) (w : Symbol) : Instr :=
  match u with
  | .enc => if eos w then .encEnd else .encByte (dataBits w)
  | .dec => if eos w then .decEnd else decChar (dataBits w)

/-! ### Words with the port written into them -/

/-- Why a number is no symbol of a port. -/
inductive Reject where
  /-- A bit above bit 9 is set: a symbol has 9 bits (R60), and what is wider cannot be put on the port (U12). -/
  | notASymbol
  deriving DecidableEq, Repr

/-- A symbol has no bit for its port, so a number that stands for a symbol of either port carries the port in bit 9
(log entry 11, DESIGN CHOICE): 0 is dec.in, 1 is enc.in. -/
def portOf (w : Nat) : Agent := if w.testBit 9 then .enc else .dec

/-- The port and the symbol that a number stands for; a number of 2^10 or more is rejected by name. -/
def portSymbol (w : Nat) : Except Reject (Agent × Symbol) :=
  if w < 2 ^ 10 then .ok (portOf w, BitVec.ofNat 9 w) else .error .notASymbol

/-- The operation that a number read by `portSymbol` selects. -/
def decodeNumber (w : Nat) : Except Reject Instr :=
  match portSymbol w with
  | .ok (u, x) => .ok (decode u x)
  | .error e => .error e

/-- The host's question: the operation of a table word of `nbits` bits. Bit 9, which no table word has, names the port
(log entry 11). -/
def decodeTableWord (nbits w : Nat) : Option Instr :=
  match decodeNumber (w % 2 ^ nbits) with
  | .ok i => some i
  | .error _ => none

/-! ### The encoder -/

/-- A data symbol: bit 8 clear (R60). -/
def dataSymbol (b : Byte) : Symbol := b.setWidth 9

/-- The end marker, written as the spec writes it (R82); any of 0x100 to 0x1FF means the same. -/
def endSymbol : Symbol := 0x100#9

/-- The symbol word of an operation on its port (R60, R82). -/
def encode : Instr → Symbol
  | .encByte b => dataSymbol b
  | .encEnd => endSymbol
  | .decWs c => dataSymbol c
  | .decDigit c => dataSymbol c
  | .decZ => dataSymbol Config.chZ
  | .decBad c => dataSymbol c
  | .decEnd => endSymbol

/-! ### The opcode table -/

/-- The mnemonics (R82). -/
inductive Mnemonic where
  | encByte
  | encEnd
  | decWs
  | decDigit
  | decZ
  | decBad
  | decEnd
  deriving DecidableEq, Repr

/-- The mnemonic of an operation. -/
def Instr.mnemonic : Instr → Mnemonic
  | .encByte _ => .encByte
  | .encEnd => .encEnd
  | .decWs _ => .decWs
  | .decDigit _ => .decDigit
  | .decZ => .decZ
  | .decBad _ => .decBad
  | .decEnd => .decEnd

/-- One row of spec/opcode_table.json: its port (the row's format), its operation, its match and its mask (R71). -/
structure Row where
  port : Agent
  op : Mnemonic
  pattern : Symbol
  mask : Symbol
  deriving DecidableEq, Repr

/-- A word matches a row when `(w & mask) = match` (R71). -/
def Row.matchesWord (r : Row) (w : Symbol) : Bool := w &&& r.mask == r.pattern

/-- The rows of enc.in (R71). -/
def encRows : List Row :=
  [⟨.enc, .encByte, 0x000#9, 0x100#9⟩, ⟨.enc, .encEnd, 0x100#9, 0x100#9⟩]

/-- The rows of dec.in that are operations on a legal character (R71). -/
def decCharRows : List Row :=
  [⟨.dec, .decWs, 0x009#9, 0x1FF#9⟩, ⟨.dec, .decWs, 0x00A#9, 0x1FF#9⟩, ⟨.dec, .decWs, 0x00D#9, 0x1FF#9⟩,
    ⟨.dec, .decWs, 0x020#9, 0x1FF#9⟩, ⟨.dec, .decDigit, 0x021#9, 0x1FF#9⟩, ⟨.dec, .decDigit, 0x022#9, 0x1FE#9⟩,
    ⟨.dec, .decDigit, 0x024#9, 0x1FC#9⟩, ⟨.dec, .decDigit, 0x028#9, 0x1F8#9⟩, ⟨.dec, .decDigit, 0x030#9, 0x1F0#9⟩,
    ⟨.dec, .decDigit, 0x040#9, 0x1E0#9⟩, ⟨.dec, .decDigit, 0x060#9, 0x1F0#9⟩, ⟨.dec, .decDigit, 0x070#9, 0x1FC#9⟩,
    ⟨.dec, .decDigit, 0x074#9, 0x1FE#9⟩, ⟨.dec, .decZ, 0x07A#9, 0x1FF#9⟩]

/-- The rows of dec.in that are malformed characters, and the end marker (R71). -/
def decBadRows : List Row :=
  [⟨.dec, .decBad, 0x000#9, 0x1F8#9⟩, ⟨.dec, .decBad, 0x008#9, 0x1FF#9⟩, ⟨.dec, .decBad, 0x00B#9, 0x1FF#9⟩,
    ⟨.dec, .decBad, 0x00C#9, 0x1FF#9⟩, ⟨.dec, .decBad, 0x00E#9, 0x1FE#9⟩, ⟨.dec, .decBad, 0x010#9, 0x1F0#9⟩,
    ⟨.dec, .decBad, 0x076#9, 0x1FE#9⟩, ⟨.dec, .decBad, 0x078#9, 0x1FE#9⟩, ⟨.dec, .decBad, 0x07B#9, 0x1FF#9⟩,
    ⟨.dec, .decBad, 0x07C#9, 0x1FC#9⟩, ⟨.dec, .decBad, 0x080#9, 0x180#9⟩, ⟨.dec, .decEnd, 0x100#9, 0x100#9⟩]

/-- All 28 rows, in the table's order (R71). -/
def opcodeTable : List Row := encRows ++ decCharRows ++ decBadRows

end Sys2Proof
end

