-- ==== Sys2Proof/Machine/State.lean ====
section
/-! DEFINITION. The state of the block (spec/10_state.md R20 to R35, 20_memory.md R40) as plain data, its value at
reset, and the reasons a step can stop. -/

namespace Sys2Proof.Machine

/-- The values of `dec.err` (R27). The numbers of the four values matter only at the port (R62): see `Err.code`. -/
inductive Err where
  /-- No error in the current message. -/
  | none
  | invalidCharacter
  /-- Never held across a step (R27, R29). -/
  | truncatedGroup
  | overflow
  deriving DecidableEq, Repr

/-- The status on an output end marker (R62). -/
inductive Status where
  | ok
  | invalidCharacter
  | truncatedGroup
  | overflow
  deriving DecidableEq, Repr

/-- An output symbol (R61), as the sum type the spec advises (D3, D4, R62); its 9 bits are `OutSym.toSymbol`. -/
inductive OutSym where
  /-- A data symbol: a character (ENC) or a byte (DEC). -/
  | data (b : Byte)
  /-- The end marker of a message's output. -/
  | done (st : Status)
  deriving DecidableEq, Repr

/-- What can happen next: a unit's turn, or an act of the host (R185). -/
inductive Event where
  /-- The unit takes its step, if a symbol waits on its input stream (R40, R176). -/
  | turn (u : Agent)
  /-- Reset of one unit, between two steps (R180); `drop` says whether the host drops the unit's queued input. -/
  | reset (u : Agent) (drop : Bool)
  /-- The host appends the symbol `w` to the unit's input stream. -/
  | send (u : Agent) (w : Symbol)
  /-- The host removes the head of the unit's output stream. -/
  | take (u : Agent)
  deriving DecidableEq, Repr

/-- The five registers of R20, the four streams of R40 (oldest symbol first; log entries 1, 2), and two fields of the
model's own: the agenda and the counter of the free value (log entries 3, 4). -/
@[ext]
structure State where
  /-- `enc.acc` (R21). -/
  encAcc : Word
  /-- `enc.cnt` (R22). -/
  encCnt : BitVec 2
  /-- `dec.acc` (R25). -/
  decAcc : Word
  /-- `dec.cnt` (R26). -/
  decCnt : BitVec 3
  /-- `dec.err` (R27). -/
  decErr : Err
  /-- `enc.in` (R40, R60). -/
  encIn : List Symbol
  /-- `enc.out` (R40, R61). -/
  encOut : List OutSym
  /-- `dec.in` (R40, R60). -/
  decIn : List Symbol
  /-- `dec.out` (R40, R61). -/
  decOut : List OutSym
  /-- What happens next, oldest first (log entry 3). -/
  agenda : List Event
  /-- How often the free value `Config.turn` has been read (log entry 4). -/
  tick : Nat
  deriving DecidableEq, Repr

/-- The state after reset: the registers as R35 gives them, the streams and the agenda empty. -/
def State.reset : State where
  encAcc := 0
  encCnt := 0
  decAcc := 0
  decCnt := 0
  decErr := .none
  encIn := []
  encOut := []
  decIn := []
  decOut := []
  agenda := []
  tick := 0

/-- The block has no fault: "No state is stuck: every operation is enabled in every state" (R120), ENC refuses no
input (R98), and the decoder's errors are next states (R166). -/
inductive Fault where
  deriving DecidableEq, Repr

/-- Why an operation has no meaning in a state. -/
inductive Refusal where
  /-- An operation that is not modelled yet: raised by arms of `exec` only. Safe. -/
  | notModelled (mnemonic : String)
  /-- Raised by ENC.BYTE and ENC.END when the encoder's registers break the invariant of R23: "no behaviour is defined
  from such a state" (U6). Safe; no run from reset gets there (log entry 5). -/
  | encRegistersUnreachable
  /-- Raised by DEC.DIGIT, DEC.Z, DEC.BAD and DEC.END when the decoder's registers break the invariant of R29: "no
  behaviour is defined from such a state" (U6). Safe; no run from reset gets there (log entry 5). -/
  | decRegistersUnreachable
  /-- Raised by DEC.DIGIT with an operand that is no alphabet character: `VAL[c]` "has no value" (R67, U5). Safe; the
  decoder never gives such an operand (log entry 6). -/
  | valHasNoValue
  deriving DecidableEq, Repr

/-- The result of one step. -/
abbrev Outcome := Host.Outcome State Fault Refusal

end Sys2Proof.Machine
end

