-- ==== Sys2Proof/Machine/Flags.lean ====
section
/-! DEFINITION. The one flag-like state `dec.err` and its codes (spec/10_state.md R27, R30; 30_encoding.md R62;
60_exceptions.md R160 to R164), the overflow test (41_decoder.md R113, R119), and the invariants of the registers
(10_state.md R23, R29). -/

namespace Sys2Proof.Machine

/-- The code of `dec.err` (R27, R164). -/
def Err.code : Err → BitVec 2
  | .none => 0#2
  | .invalidCharacter => 1#2
  | .truncatedGroup => 2#2
  | .overflow => 3#2

/-- The code of a status (R62). -/
def Status.code : Status → BitVec 2
  | .ok => 0#2
  | .invalidCharacter => 1#2
  | .truncatedGroup => 2#2
  | .overflow => 3#2

/-- The status that reports a latched error; `dec.err` and the status field use one code (R27, R164). -/
def Err.status : Err → Status
  | .none => .ok
  | .invalidCharacter => .invalidCharacter
  | .truncatedGroup => .truncatedGroup
  | .overflow => .overflow

/-- The overflow test, on the whole 33-bit sum and before any narrowing (R113, R115 (iii), R119; conflict C1). -/
abbrev Overflows (t : Nat) : Prop := Config.limit ≤ t

/-- The encoder's invariant (R23). -/
abbrev State.EncInv (s : State) : Prop := s.encAcc.toNat < 256 ^ s.encCnt.toNat

/-- The decoder's invariant (R29). -/
abbrev State.DecInv (s : State) : Prop :=
  s.decCnt.toNat ≤ 4 ∧ s.decAcc.toNat < Config.radix ^ s.decCnt.toNat ∧
    (s.decErr ≠ .none → s.decCnt = 0 ∧ s.decAcc = 0) ∧ s.decErr ≠ .truncatedGroup

/-- Both invariants: "true after reset and after every step" (R23, R29). -/
abbrev State.Inv (s : State) : Prop := s.EncInv ∧ s.DecInv

end Sys2Proof.Machine
end

