-- ==== Sys2Proof/Machine/Ops.lean ====
section
/-! DEFINITION. The named operations over registers and streams: the stream primitives of spec/00_scope.md R11 and
20_memory.md R40, error entry (60_exceptions.md R166), re-arming and reset (70_reset_and_hazards.md R180, R182), the
host's acts (R185), and the choice of the next unit. -/

namespace Sys2Proof.Machine

/-- The port word of an output symbol (R61): `{0, b}`, or `{1, 0b000000, status}`. -/
def OutSym.toSymbol : OutSym → Symbol
  | .data b => b.setWidth 9
  | .done st => 1#1 ++ (0#6 ++ st.code)

namespace State

/-! ### Streams -/

/-- The unit's input stream (R40). -/
def inp (s : State) : Agent → List Symbol
  | .enc => s.encIn
  | .dec => s.decIn

/-- The unit's output stream (R40). -/
def out (s : State) : Agent → List OutSym
  | .enc => s.encOut
  | .dec => s.decOut

/-- The unit's output as the 9-bit words on its port (R61). -/
def portWords (s : State) (u : Agent) : List Symbol := (s.out u).map OutSym.toSymbol

/-- The state with another input stream for the unit. -/
def setInp (s : State) (u : Agent) (ws : List Symbol) : State :=
  match u with
  | .enc => { s with encIn := ws }
  | .dec => { s with decIn := ws }

/-- The state with another output stream for the unit. -/
def setOut (s : State) (u : Agent) (os : List OutSym) : State :=
  match u with
  | .enc => { s with encOut := os }
  | .dec => { s with decOut := os }

/-- The state with another agenda. -/
def setAgenda (s : State) (es : List Event) : State := { s with agenda := es }

/-- `Emit(u, b)` for each `b` of `bs`, in order (R11, R47). -/
def emit (s : State) (u : Agent) (bs : List Byte) : State := s.setOut u (s.out u ++ bs.map OutSym.data)

/-- `EmitDone(u, st)` (R11, R61). -/
def emitDone (s : State) (u : Agent) (st : Status) : State := s.setOut u (s.out u ++ [OutSym.done st])

/-- A unit consumes the head of its input stream, if there is one (R40, R48). -/
def consume (s : State) (u : Agent) : Option (Symbol × State) :=
  match s.inp u with
  | [] => none
  | w :: ws => some (w, s.setInp u ws)

/-- Which unit steps when the agenda is empty, and the state with the free value's counter advanced if it was read: a
unit with a symbol waiting takes its step (U1, R195); if both wait the free value chooses (R52; log entry 4). -/
def arbitrate (s : State) : Option (Agent × State) :=
  match s.encIn, s.decIn with
  | [], [] => none
  | _ :: _, [] => some (.enc, s)
  | [], _ :: _ => some (.dec, s)
  | _ :: _, _ :: _ => some (Config.turn s.tick, { s with tick := s.tick + 1 })

/-! ### Registers -/

/-- Writes `enc.acc` and `enc.cnt`; the rules show that the values fit (R95). -/
def setEnc (s : State) (acc cnt : Nat) : State :=
  { s with encAcc := BitVec.ofNat 32 acc, encCnt := BitVec.ofNat 2 cnt }

/-- Writes `dec.acc` and `dec.cnt`; the rules show that the values fit (R115). -/
def setDec (s : State) (acc cnt : Nat) : State :=
  { s with decAcc := BitVec.ofNat 32 acc, decCnt := BitVec.ofNat 3 cnt }

/-- The registers of ENC at their reset values (R35, R182). -/
def rearmEnc (s : State) : State := { s with encAcc := 0, encCnt := 0 }

/-- The registers of DEC at their reset values (R35, R182): also the only way out of a failed state (R169). -/
def rearmDec (s : State) : State := { s with decAcc := 0, decCnt := 0, decErr := .none }

/-- Error entry (R166): the cause is latched, the group in progress is dropped, nothing is emitted. -/
def raise (s : State) (cause : Err) : State := { s with decErr := cause, decAcc := 0, decCnt := 0 }

/-! ### The host -/

/-- Reset of one unit (R180); the queued input is dropped if the host says so. -/
def resetUnit (s : State) (u : Agent) (drop : Bool) : State :=
  let s := match u with
    | .enc => s.rearmEnc
    | .dec => s.rearmDec
  if drop then s.setInp u [] else s

/-- The host appends a symbol to the unit's input stream (R40). -/
def send (s : State) (u : Agent) (w : Symbol) : State := s.setInp u (s.inp u ++ [w])

/-- The host removes the head of the unit's output stream, if there is one (R40; log entry 8). -/
def take (s : State) (u : Agent) : State := s.setOut u (s.out u).tail

/-- Puts a symbol where the next step consumes one: at the head of the unit's input stream, with that unit's turn at the
head of the agenda (log entry 12). -/
def offer (s : State) (u : Agent) (w : Symbol) : State :=
  { s.setInp u (w :: s.inp u) with agenda := .turn u :: s.agenda }

end State

end Sys2Proof.Machine
end

