-- ==== Sys2Proof/Machine/Decoder.lean ====
section
/-! DEFINITION. The operations of the decoder unit (spec/41_decoder.md R114 to R118). -/

namespace Sys2Proof.Machine

/-- DEC.WS: "a no-op in every state" (R114). -/
def execDecWs (_c : Byte) (s : State) : Outcome := .next s

/-- DEC.DIGIT with digit `d`, in a state with no error latched (R115). -/
def acceptDigit (d : Nat) (s : State) : State :=
  let t := s.decAcc.toNat * Config.radix + d
  if s.decCnt.toNat < 4 then s.setDec t (s.decCnt.toNat + 1)
  else if Overflows t then s.raise .overflow
  else (s.emit .dec (bytesOf t)).setDec 0 0

/-- DEC.DIGIT (R115). -/
def execDecDigit (c : Byte) (s : State) : Outcome :=
  if s.DecInv then
    match val c with
    | some d => if s.decErr ≠ .none then .next s else .next (acceptDigit d s)
    | none => .refused .valHasNoValue
  else .refused .decRegistersUnreachable

/-- DEC.Z (R116). -/
def execDecZ (s : State) : Outcome :=
  if s.DecInv then
    if s.decErr ≠ .none then .next s
    else if s.decCnt = 0 then .next (s.emit .dec [0, 0, 0, 0])
    else .next (s.raise .invalidCharacter)
  else .refused .decRegistersUnreachable

/-- DEC.BAD (R117). -/
def execDecBad (_c : Byte) (s : State) : Outcome :=
  if s.DecInv then
    if s.decErr ≠ .none then .next s else .next (s.raise .invalidCharacter)
  else .refused .decRegistersUnreachable

/-- What DEC.END emits before the end marker, and the status on it (R118), for the latched error `err` and a group in
progress of `n` digits with value `acc`. -/
def decVerdict (err : Err) (n acc : Nat) : List Byte × Status :=
  if err ≠ .none then ([], err.status)
  else if n = 0 then ([], .ok)
  else if n = 1 then ([], .truncatedGroup)
  else if Overflows (padTo n acc) then ([], .overflow)
  else ((bytesOf (padTo n acc)).take (n - 1), .ok)

/-- DEC.END (R118). -/
def execDecEnd (s : State) : Outcome :=
  if s.DecInv then
    let r := decVerdict s.decErr s.decCnt.toNat s.decAcc.toNat
    .next ((s.emit .dec r.1).emitDone .dec r.2).rearmDec
  else .refused .decRegistersUnreachable

end Sys2Proof.Machine
end

