-- ==== Sys2Proof/Machine/Encoder.lean ====
section
/-! DEFINITION. The operations of the encoder unit (spec/40_encoder.md R95, R96). -/

namespace Sys2Proof.Machine

/-- ENC.BYTE (R95). -/
def execEncByte (b : Byte) (s : State) : Outcome :=
  if s.EncInv then
    let a := s.encAcc.toNat * 256 + b.toNat
    if s.encCnt.toNat < 3 then .next (s.setEnc a (s.encCnt.toNat + 1))
    else .next (s.emit .enc (encFull a)).rearmEnc
  else .refused .encRegistersUnreachable

/-- The characters that ENC.END emits for a final group of `n` bytes held in `acc`: none for `n = 0` (R96). -/
def encTail (n acc : Nat) : List Byte :=
  if n = 0 then [] else encPartial n (acc * 256 ^ (Config.groupBytes - n))

/-- ENC.END (R96). -/
def execEncEnd (s : State) : Outcome :=
  if s.EncInv then
    .next ((s.emit .enc (encTail s.encCnt.toNat s.encAcc.toNat)).emitDone .enc .ok).rearmEnc
  else .refused .encRegistersUnreachable

end Sys2Proof.Machine
end

