-- ==== Sys2Proof/Machine/Dispatch.lean ====
section
/-! DEFINITION. One arm per operation: its meaning (spec/30_encoding.md R69, R70). -/

namespace Sys2Proof.Machine

def exec (i : Instr) (s : State) : Host.Outcome State Fault Refusal :=
  match i with
  | .encByte b => Sys2Proof.Machine.execEncByte b s
  | .encEnd => Sys2Proof.Machine.execEncEnd s
  | .decWs c => Sys2Proof.Machine.execDecWs c s
  | .decDigit c => Sys2Proof.Machine.execDecDigit c s
  | .decZ => Sys2Proof.Machine.execDecZ s
  | .decBad c => Sys2Proof.Machine.execDecBad c s
  | .decEnd => Sys2Proof.Machine.execDecEnd s

end Sys2Proof.Machine
end

