-- ==== Sys2Proof/Machine/Turn.lean ====
section
/-! DEFINITION. What one step of the block is made of: a unit's turn (spec/20_memory.md R40, 60_exceptions.md R176) and
the acts of the host (70_reset_and_hazards.md R180, R185). -/

namespace Sys2Proof.Machine

/-- The unit consumes one symbol and performs the operation it selects; with no symbol waiting it "takes no step, and
keeps its state" (R40, R176; log entry 7). -/
def takeTurn (u : Agent) (s : State) : Outcome :=
  match s.consume u with
  | some (w, s') => exec (decode u w) s'
  | none => .next s

/-- The event at the head of the agenda happens. -/
def perform (e : Event) (s : State) : Outcome :=
  match e with
  | .turn u => takeTurn u s
  | .reset u drop => .next (s.resetUnit u drop)
  | .send u w => .next (s.send u w)
  | .take u => .next (s.take u)

/-- One step: the next event of the agenda; with an empty agenda, a unit with a symbol waiting takes its turn; with no
symbol waiting either, nothing happens (R176; log entries 3, 4, 7). -/
def stepOnce (s : State) : Outcome :=
  match s.agenda with
  | e :: es => perform e (s.setAgenda es)
  | [] =>
    match s.arbitrate with
    | some (u, s') => takeTurn u s'
    | none => .next s

/-- The symbol and port that the host's number stands for, offered to that unit (log entries 11, 12). -/
def offerNumber (s : State) (nbits w : Nat) : State :=
  match portSymbol (w % 2 ^ nbits) with
  | .ok (u, x) => s.offer u x
  | .error _ => s

end Sys2Proof.Machine
end

