-- ==== Sys2Proof/Machine/Step.lean ====
section
/-! DEFINITION. The step function of the block and the place its next symbol is put; both only call `Machine/Turn.lean`. -/

namespace Sys2Proof.Machine

/-- One step of the block. -/
def step (s : State) : Host.Outcome State Fault Refusal := stepOnce s

/-- `s` with the symbol `w` (its port in bit 9, log entry 11) offered to its unit, whose turn is next (log entry 12). -/
def State.withFetchWord (s : State) (nbits w : Nat) : State := offerNumber s nbits w

end Sys2Proof.Machine
end

