-- ==== Sys2Proof/Machine/Message.lean ====
section
/-! DEFINITION. The codec as functions of whole messages (spec/42_message_level.md R140 to R143), and a message as the
symbols of a port (30_encoding.md R83). -/

namespace Sys2Proof.Machine

/-! ### `encode` -/

/-- `encode(bs)`: full groups of four bytes from the front, then the partial group of what is left (R141). -/
def encodeMsg : List Byte → List Byte
  | b0 :: b1 :: b2 :: b3 :: bs => encFull (pack [b0, b1, b2, b3]) ++ encodeMsg bs
  | [] => []
  | bs => encPartial bs.length (pack bs)

/-- How many full groups of a message are all zero: the `k` of R141's length. -/
def zeroGroups : List Byte → Nat
  | b0 :: b1 :: b2 :: b3 :: bs => (if pack [b0, b1, b2, b3] = 0 then 1 else 0) + zeroGroups bs
  | _ => 0

/-! ### `decode` -/

/-- The variables of the decoding pass of R142: the pending digits, the output and the failure flag. -/
structure Pass where
  ds : List Nat
  out : List Byte
  failed : Err
  deriving DecidableEq, Repr

/-- The start of the pass: "all initially empty or clear" (R142). -/
def Pass.start : Pass := { ds := [], out := [], failed := .none }

/-- A digit joins the pending group (R142). -/
def Pass.digit (p : Pass) (d : Nat) : Pass :=
  let ds := p.ds ++ [d]
  if ds.length = Config.groupChars then
    if Overflows (value ds) then { p with ds := [], failed := .overflow }
    else { p with ds := [], out := p.out ++ bytesOf (value ds) }
  else { p with ds := ds }

/-- One character of the pass (R142). -/
def Pass.char (p : Pass) (c : Byte) : Pass :=
  if p.failed ≠ .none then p
  else match charClass c with
    | .ws => p
    | .bad => { p with failed := .invalidCharacter }
    | .z => if p.ds = [] then { p with out := p.out ++ [0, 0, 0, 0] } else { p with failed := .invalidCharacter }
    | .digit => p.digit (c.toNat - Config.chFirst)

/-- The end of the pass (R142). -/
def Pass.finish (p : Pass) : Status × List Byte :=
  if p.failed ≠ .none then (p.failed.status, p.out)
  else if p.ds.length = 0 then (.ok, p.out)
  else if p.ds.length = 1 then (.truncatedGroup, p.out)
  else if Overflows (padded p.ds) then (.overflow, p.out)
  else (.ok, p.out ++ (bytesOf (padded p.ds)).take (p.ds.length - 1))

/-- `decode(cs)`: the status, and the bytes emitted (R142). -/
def decodeMsg (cs : List Byte) : Status × List Byte := (cs.foldl Pass.char Pass.start).finish

/-- What the caller of `decode` may use (R143): the bytes, or the failure alone. -/
inductive Result where
  | bytes (bs : List Byte)
  | failure (st : Status)
  deriving DecidableEq, Repr

/-- The result that a status and the bytes emitted before it stand for: the bytes only with status OK (R143, R187). -/
def Result.of (st : Status) (bs : List Byte) : Result :=
  match st with
  | .ok => .bytes bs
  | .invalidCharacter => .failure .invalidCharacter
  | .truncatedGroup => .failure .truncatedGroup
  | .overflow => .failure .overflow

/-- `decode_result(cs)` (R143). -/
def decodeResult (cs : List Byte) : Result := Result.of (decodeMsg cs).1 (decodeMsg cs).2

/-! ### Messages on a port -/

/-- A message as symbols: the data symbols in order, then the end marker. `ENC.MSG` and `DEC.MSG` of R83. -/
def messageSymbols (cs : List Byte) : List Symbol := cs.map dataSymbol ++ [endSymbol]

/-- A message's output: the data symbols in order, then the end marker with the status (R61). -/
def messageOutput (cs : List Byte) (st : Status) : List OutSym := cs.map OutSym.data ++ [OutSym.done st]

end Sys2Proof.Machine
end

