-- ==== Sys2Proof/Machine/Runs.lean ====
section
/-! DEFINITION. What a unit has emitted while the machine ran, the unit's resets among it, and the results of the runs
that ended (spec/70_reset_and_hazards.md R180, R184, R194; 10_state.md R20: "an event history the block never reads
back"; log entry 2). -/

namespace Sys2Proof.Machine

/-- What an observer of a unit notes: a symbol it emits, or its reset, which emits nothing (R180). -/
inductive Mark where
  | emitted (o : OutSym)
  | reset
  deriving DecidableEq, Repr

/-- The next event of the agenda is a reset of the unit. -/
def resetNext (u : Agent) : List Event → Bool
  | .reset v _ :: _ => v == u
  | _ => false

/-- What a step from `s` to `t` appended to the unit's output; nothing if the host took a symbol instead. -/
def newOutput (u : Agent) (s t : State) : List OutSym := (t.out u).drop (s.out u).length

/-- What the observer notes of the unit in the step from `s`. -/
def stepMarks (u : Agent) (s : State) : List Mark :=
  match step s with
  | .next t => if resetNext u s.agenda then [.reset] else (newOutput u s t).map .emitted
  | .fault _ => []
  | .refused _ => []

/-- What the observer notes of the unit in `k` steps from `s`. It holds what was emitted, whether or not the host has
removed it from the output stream (R184). -/
def history (u : Agent) : Nat → State → List Mark
  | 0, _ => []
  | k + 1, s =>
    stepMarks u s ++
      match step s with
      | .next t => history u k t
      | .fault _ => []
      | .refused _ => []

/-- The results of the runs that end in a history, where `bs` is what the run in progress had emitted before it: for each
end marker "the data symbols emitted since the previous output end marker (or since reset), in order, and the status on
the end marker" (R184). A reset drops the run in progress, which has no result (R180, R194). -/
def endedRuns (bs : List Byte) : List Mark → List (Status × List Byte)
  | [] => []
  | .emitted (.data b) :: ms => endedRuns (bs ++ [b]) ms
  | .emitted (.done st) :: ms => (st, bs) :: endedRuns [] ms
  | .reset :: ms => endedRuns [] ms

/-- The results of the unit's runs that end in `k` steps from a state with no run in progress (R184). -/
def runResults (u : Agent) (k : Nat) (s : State) : List (Status × List Byte) := endedRuns [] (history u k s)

end Sys2Proof.Machine
end

