-- ==== Sys2Proof/Safety.lean ====
section
/-! DEFINITION. The terms that claims about runs and frames are stated in: a run of the machine, a safe run (it never
stops, and the registers keep the invariants of spec/10_state.md R23 and R29), what a unit's operation leaves alone
(R20, R52), and what may stand on the encoder's output (40_encoder.md R96, R100). -/

namespace Sys2Proof

open Machine

/-- `k` steps of the machine, stopping at the first fault or refusal: the host's `core.run` (Laws/Step.lean,
`core_run`). -/
def run : Nat → State → Outcome
  | 0, s => .next s
  | k + 1, s =>
    match step s with
    | .next t => run k t
    | .fault r => .fault r
    | .refused r => .refused r

/-- The machine runs `k` steps from `s` and ends in `t`. -/
def RunsTo (k : Nat) (s t : State) : Prop := run k s = .next t

/-- However long the machine runs from `s`, no step faults or refuses, and both invariants hold. -/
def SafeFrom (s : State) : Prop := ∀ k, ∃ t, RunsTo k s t ∧ State.Inv t

/-- Everything but `enc.acc`, `enc.cnt` and `enc.out` is the same. -/
abbrev EncFrame (s t : State) : Prop :=
  t.decAcc = s.decAcc ∧ t.decCnt = s.decCnt ∧ t.decErr = s.decErr ∧ t.encIn = s.encIn ∧ t.decIn = s.decIn ∧
    t.decOut = s.decOut ∧ t.agenda = s.agenda ∧ t.tick = s.tick

/-- Everything but `dec.acc`, `dec.cnt`, `dec.err` and `dec.out` is the same. -/
abbrev DecFrame (s t : State) : Prop :=
  t.encAcc = s.encAcc ∧ t.encCnt = s.encCnt ∧ t.encIn = s.encIn ∧ t.decIn = s.decIn ∧ t.encOut = s.encOut ∧
    t.agenda = s.agenda ∧ t.tick = s.tick

/-- The encoder's registers are at their reset values: a group boundary (R35, R44). -/
abbrev EncAtReset (s : State) : Prop := s.encAcc = 0 ∧ s.encCnt = 0

/-- The decoder's registers are at their reset values (R35). -/
abbrev DecAtReset (s : State) : Prop := s.decAcc = 0 ∧ s.decCnt = 0 ∧ s.decErr = .none

/-- The agenda that gives a unit `n` turns and then goes on with `es`. -/
def turns (u : Agent) (n : Nat) (es : List Event) : List Event := List.replicate n (.turn u) ++ es

/-- The agenda in which the host sends the symbols to a unit, in order, and then goes on with `es` (R186). -/
def sends (u : Agent) (ws : List Symbol) (es : List Event) : List Event := ws.map (.send u) ++ es

/-- An output symbol that ENC may emit: a character in `!`..`u`, the character `z`, or an end marker with status OK
(R96, R100). -/
def encSymbolLegal : OutSym → Bool
  | .data c => (Config.chFirst ≤ c.toNat && c.toNat ≤ Config.chLast) || c == Config.chZ
  | .done st => st == .ok

/-- Every symbol on the encoder's output is one that ENC may emit. -/
abbrev EncOutLegal (s : State) : Prop := ∀ o ∈ s.encOut, encSymbolLegal o = true

end Sys2Proof
end

