-- ==== Sys2Proof/Certificates/Slice0/Obligations.lean ====
section
/-! DEFINITION. The statements for the provers. The rules cited are the spec's; "log entry <n>" is
notes/assumptions/<n>.md. -/

open Sys2Proof Sys2Proof.Machine

/-! ### The operations -/

/-- ENC.BYTE (R95): its decoding, its effect, its frame; it completes for every byte in every state of R23. -/
def Obligations.EncByteEffect : Prop :=
  (∀ w : Symbol, eos w = false → decode .enc w = .encByte (dataBits w)) ∧
  ∀ (b : Byte) (s : State), s.EncInv → ∃ t, exec (.encByte b) s = .next t ∧ EncFrame s t ∧
    s.encAcc.toNat * 256 + b.toNat < 2 ^ 32 ∧
    (s.encCnt.toNat < 3 → t.encAcc.toNat = s.encAcc.toNat * 256 + b.toNat ∧
      t.encCnt.toNat = s.encCnt.toNat + 1 ∧ t.encOut = s.encOut) ∧
    (s.encCnt.toNat = 3 → t.encAcc = 0 ∧ t.encCnt = 0 ∧
      (s.encAcc.toNat * 256 + b.toNat = 0 → t.encOut = s.encOut ++ [.data 0x7A#8]) ∧
      (s.encAcc.toNat * 256 + b.toNat ≠ 0 →
        t.encOut = s.encOut ++ (chars (s.encAcc.toNat * 256 + b.toNat)).map .data))

/-- ENC.END (R96): its decoding, its effect, its frame. -/
def Obligations.EncEndEffect : Prop :=
  (∀ w : Symbol, eos w = true → decode .enc w = .encEnd) ∧
  ∀ s : State, s.EncInv → ∃ t, exec .encEnd s = .next t ∧ EncFrame s t ∧ t.encAcc = 0 ∧ t.encCnt = 0 ∧
    (s.encCnt = 0 → t.encOut = s.encOut ++ [.done .ok]) ∧
    (s.encCnt ≠ 0 → s.encAcc.toNat * 256 ^ (4 - s.encCnt.toNat) < 2 ^ 32 ∧
      t.encOut = s.encOut ++
        ((chars (s.encAcc.toNat * 256 ^ (4 - s.encCnt.toNat))).take (s.encCnt.toNat + 1)).map .data ++ [.done .ok])

/-- DEC.WS (R114): its decoding, and that it is a no-op in every state. -/
def Obligations.DecWsIsNoOp : Prop :=
  (∀ w : Symbol, eos w = false → charClass (dataBits w) = .ws → decode .dec w = .decWs (dataBits w)) ∧
  ∀ (c : Byte) (s : State), exec (.decWs c) s = .next s

/-- DEC.DIGIT (R115): its decoding, its effect, its frame. The four bytes are bit fields of the 32-bit group value. -/
def Obligations.DecDigitEffect : Prop :=
  (∀ w : Symbol, eos w = false → charClass (dataBits w) = .digit → decode .dec w = .decDigit (dataBits w)) ∧
  ∀ (c : Byte) (s : State), 33 ≤ c.toNat → c.toNat ≤ 117 → s.DecInv →
    ∃ t, exec (.decDigit c) s = .next t ∧ DecFrame s t ∧ (s.decErr ≠ .none → t = s) ∧
      (s.decErr = .none → s.decCnt.toNat < 4 →
        t.decAcc.toNat = s.decAcc.toNat * 85 + (c.toNat - 33) ∧ t.decCnt.toNat = s.decCnt.toNat + 1 ∧
          t.decErr = .none ∧ t.decOut = s.decOut) ∧
      (s.decErr = .none → s.decCnt.toNat = 4 → t.decAcc = 0 ∧ t.decCnt = 0 ∧
        (2 ^ 32 ≤ s.decAcc.toNat * 85 + (c.toNat - 33) → t.decErr = .overflow ∧ t.decOut = s.decOut) ∧
        (∀ x : BitVec 32, x.toNat = s.decAcc.toNat * 85 + (c.toNat - 33) → t.decErr = .none ∧
          t.decOut = s.decOut ++ [.data (x.extractLsb' 24 8), .data (x.extractLsb' 16 8), .data (x.extractLsb' 8 8),
            .data (x.extractLsb' 0 8)]))

/-- DEC.Z (R116): its decoding, its effect, its frame. -/
def Obligations.DecZEffect : Prop :=
  (∀ w : Symbol, eos w = false → charClass (dataBits w) = .z → w = 0x07A#9 ∧ decode .dec w = .decZ) ∧
  ∀ s : State, s.DecInv → ∃ t, exec .decZ s = .next t ∧ DecFrame s t ∧ (s.decErr ≠ .none → t = s) ∧
    (s.decErr = .none → s.decCnt = 0 → t.decAcc = 0 ∧ t.decCnt = 0 ∧ t.decErr = .none ∧
      t.decOut = s.decOut ++ [.data 0, .data 0, .data 0, .data 0]) ∧
    (s.decErr = .none → s.decCnt ≠ 0 → t.decAcc = 0 ∧ t.decCnt = 0 ∧ t.decErr = .invalidCharacter ∧
      t.decOut = s.decOut)

/-- DEC.BAD (R117): its decoding, its effect, its frame; the operand's value is not used. -/
def Obligations.DecBadEffect : Prop :=
  (∀ w : Symbol, eos w = false → charClass (dataBits w) = .bad → decode .dec w = .decBad (dataBits w)) ∧
  ∀ (c : Byte) (s : State), s.DecInv → ∃ t, exec (.decBad c) s = .next t ∧ DecFrame s t ∧
    t.decOut = s.decOut ∧ (s.decErr ≠ .none → t = s) ∧
    (s.decErr = .none → t.decAcc = 0 ∧ t.decCnt = 0 ∧ t.decErr = .invalidCharacter)

/-- DEC.END (R118): its decoding, its effect, its frame. The bytes are bit fields of the 32-bit padded value. -/
def Obligations.DecEndEffect : Prop :=
  (∀ w : Symbol, eos w = true → decode .dec w = .decEnd) ∧
  ∀ s : State, s.DecInv → ∃ t, exec .decEnd s = .next t ∧ DecFrame s t ∧
    t.decAcc = 0 ∧ t.decCnt = 0 ∧ t.decErr = .none ∧
    (s.decErr ≠ .none → t.decOut = s.decOut ++ [.done s.decErr.status]) ∧
    (s.decErr = .none → s.decCnt = 0 → t.decOut = s.decOut ++ [.done .ok]) ∧
    (s.decErr = .none → s.decCnt = 1 → t.decOut = s.decOut ++ [.done .truncatedGroup]) ∧
    (s.decErr = .none → 2 ≤ s.decCnt.toNat →
      (2 ^ 32 ≤ s.decAcc.toNat * 85 ^ (5 - s.decCnt.toNat) + (85 ^ (5 - s.decCnt.toNat) - 1) →
        t.decOut = s.decOut ++ [.done .overflow]) ∧
      (∀ x : BitVec 32, x.toNat = s.decAcc.toNat * 85 ^ (5 - s.decCnt.toNat) + (85 ^ (5 - s.decCnt.toNat) - 1) →
        t.decOut = s.decOut ++ ([OutSym.data (x.extractLsb' 24 8), .data (x.extractLsb' 16 8),
          .data (x.extractLsb' 8 8)].take (s.decCnt.toNat - 1)) ++ [.done .ok]))

/-- DEC.DIGIT with an operand that is no alphabet character is refused: `VAL[c]` has no value (U5; log entry 6, the
model's choice). The decoder never gives such an operand. -/
def Obligations.DigitWithoutValueIsRefused : Prop :=
  ∀ (c : Byte) (s : State), s.DecInv → ¬(33 ≤ c.toNat ∧ c.toNat ≤ 117) →
    exec (.decDigit c) s = .refused .valHasNoValue

/-- From register values that break the invariants an operation that reads registers is refused (U6; log entry 5). -/
def Obligations.UnreachableRegistersAreRefused : Prop :=
  (∀ (s : State), ¬s.EncInv → (∀ b, exec (.encByte b) s = .refused .encRegistersUnreachable) ∧
    exec .encEnd s = .refused .encRegistersUnreachable) ∧
  (∀ (s : State), ¬s.DecInv → (∀ c, exec (.decDigit c) s = .refused .decRegistersUnreachable) ∧
    exec .decZ s = .refused .decRegistersUnreachable ∧ (∀ c, exec (.decBad c) s = .refused .decRegistersUnreachable) ∧
    exec .decEnd s = .refused .decRegistersUnreachable)

/-- Every operation is enabled in every state that the invariants of R23 and R29 allow, and keeps them (R98, R120). -/
def Obligations.EveryOperationIsEnabled : Prop :=
  ∀ (i : Instr) (s : State), i.wellFormed = true → s.Inv → ∃ t, exec i s = .next t ∧ t.Inv

/-- What a step emits (R47): how many data symbols, then at most one end marker, appended to the unit's own output. -/
def Obligations.EmissionCounts : Prop :=
  ∀ (i : Instr) (s t : State), exec i s = .next t →
    ∃ (bs : List Byte) (ends : List OutSym), t.out i.agent = s.out i.agent ++ bs.map .data ++ ends ∧
      match i with
      | .encByte _ => bs.length ∈ [0, 1, 5] ∧ ends = []
      | .encEnd => bs.length ∈ [0, 2, 3, 4] ∧ ends = [.done .ok]
      | .decWs _ => bs = [] ∧ ends = []
      | .decDigit _ => bs.length ∈ [0, 4] ∧ ends = []
      | .decZ => bs.length ∈ [0, 4] ∧ ends = []
      | .decBad _ => bs = [] ∧ ends = []
      | .decEnd => bs.length ∈ [0, 1, 2, 3] ∧ ∃ st, ends = [.done st]

/-- An operation of one unit leaves the other unit's registers and streams, both input streams and the agenda alone
(R20, R52): the frame of all seven. -/
def Obligations.UnitsLeaveEachOtherAlone : Prop :=
  ∀ (i : Instr) (s t : State), exec i s = .next t →
    (i.agent = .enc → EncFrame s t) ∧ (i.agent = .dec → DecFrame s t)

/-! ### Errors -/

/-- Which operation latches which error, and when (R161, R163): only from None; error entry clears the group in progress
and emits nothing (R166). -/
def Obligations.WhichOperationLatchesWhichError : Prop :=
  ∀ (i : Instr) (s t : State), i.agent = .dec → exec i s = .next t → t.decErr ≠ s.decErr → t.decErr ≠ .none →
    s.decErr = .none ∧ t.decAcc = 0 ∧ t.decCnt = 0 ∧ t.decOut = s.decOut ∧
      ((t.decErr = .invalidCharacter ∧ ((∃ c, i = .decBad c) ∨ (i = .decZ ∧ s.decCnt ≠ 0))) ∨
        (t.decErr = .overflow ∧ s.decCnt = 4 ∧ ∃ c d, i = .decDigit c ∧ val c = some d ∧
          2 ^ 32 ≤ s.decAcc.toNat * 85 + d))

/-- A failed message: every data symbol up to the end marker is consumed and ignored, the end marker reports the error
latched first, and the decoder is then at its reset values (R121, R168, R169). The turns on the agenda are the model's
(log entry 3). -/
def Obligations.FailedMessageDrains : Prop :=
  ∀ (cs : List Byte) (rest : List Symbol) (es : List Event) (s : State), s.DecInv → s.decErr ≠ .none →
    s.decIn = messageSymbols cs ++ rest → s.agenda = turns .dec (cs.length + 1) es →
    RunsTo cs.length s { s with decIn := endSymbol :: rest, agenda := turns .dec 1 es } ∧
    RunsTo (cs.length + 1) s { s with
      decIn := rest, agenda := es, decAcc := 0, decCnt := 0, decErr := .none,
      decOut := s.decOut ++ [.done s.decErr.status] }

/-- The codes of `dec.err` and of the status field (R62, R164): 0 for no error, then the three causes; a latched error is
reported under its own code on the end marker. -/
def Obligations.ErrorCodes : Prop :=
  [Status.ok, .invalidCharacter, .truncatedGroup, .overflow].map Status.code = [0#2, 1#2, 2#2, 3#2] ∧
  [Err.none, .invalidCharacter, .truncatedGroup, .overflow].map Err.code = [0#2, 1#2, 2#2, 3#2] ∧
  ∀ e : Err, (OutSym.done e.status).toSymbol.extractLsb' 0 2 = e.code

/-! ### Reset -/

/-- The registers after reset, and after every ENC.END and DEC.END step (R35). -/
def Obligations.ResetAndEndMarkersGiveResetRegisters : Prop :=
  EncAtReset State.reset ∧ DecAtReset State.reset ∧
    (∀ s : State, s.EncInv → ∃ t, exec .encEnd s = .next t ∧ EncAtReset t) ∧
    (∀ s : State, s.DecInv → ∃ t, exec .decEnd s = .next t ∧ DecAtReset t)

/-- The reset event (R180): between any two steps, one unit's registers go to their reset values, nothing is emitted, the
other unit is untouched; the queued input is kept or dropped. The event on the agenda is the model's (log entry 3). -/
def Obligations.ResetEventResetsOneUnit : Prop :=
  ∀ (s : State) (es : List Event) (drop : Bool),
    (s.agenda = .reset .enc drop :: es →
      step s = .next { s with agenda := es, encAcc := 0, encCnt := 0, encIn := if drop then [] else s.encIn }) ∧
    (s.agenda = .reset .dec drop :: es →
      step s = .next { s with
        agenda := es, decAcc := 0, decCnt := 0, decErr := .none, decIn := if drop then [] else s.decIn })

/-- The reset state meets both invariants, and its encoder output is legal (R23, R29; the empty streams are the model's,
log entries 1, 2). -/
def Obligations.ResetMeetsTheInvariants : Prop := State.reset.Inv ∧ EncOutLegal State.reset

/-! ### Invariants and runs -/

/-- The register invariants are true after reset and after every step (R23, R29), whatever is on the agenda. -/
def Obligations.StepKeepsTheRegisterInvariants : Prop :=
  State.reset.Inv ∧ ∀ s t : State, s.Inv → step s = .next t →
    t.encAcc.toNat < 256 ^ t.encCnt.toNat ∧ (t.encCnt = 0 → t.encAcc = 0) ∧ t.encAcc.toNat < 2 ^ 24 ∧
    t.decCnt.toNat ≤ 4 ∧ t.decAcc.toNat < 85 ^ t.decCnt.toNat ∧ (t.decCnt = 0 → t.decAcc = 0) ∧
    (t.decErr ≠ .none → t.decCnt = 0 ∧ t.decAcc = 0) ∧ t.decErr ≠ .truncatedGroup

/-- From every state of the invariants, reset among them, the machine never stops (R98, R120). -/
def Obligations.RunsFromTheInvariantsAreSafe : Prop := ∀ s : State, s.Inv → SafeFrom s

/-- Every step keeps the encoder's output legal (R100): only characters in `!`..`u`, the character `z`, and end markers
with status OK; in every state, whatever its registers hold. -/
def Obligations.StepKeepsTheEncoderOutputLegal : Prop :=
  ∀ s t : State, EncOutLegal s → step s = .next t → EncOutLegal t

/-- Any interleaving of the two units' turns gives the same state as all of ENC's turns followed by all of DEC's (R52). -/
def Obligations.AnyInterleavingGivesTheSame : Prop :=
  ∀ (us : List Agent) (es : List Event) (s : State), s.Inv → s.agenda = us.map .turn ++ es →
    run us.length s =
      run us.length { s with agenda := turns .enc (us.count .enc) (turns .dec (us.count .dec) es) }

/-- While only the units act, their output streams grow at the tail and nothing on them changes (R40, R51, R171). -/
def Obligations.UnitsOnlyAppendToTheirOutput : Prop :=
  ∀ (k : Nat) (s t : State) (u : Agent), (∀ e ∈ s.agenda, ∃ v, e = .turn v) → RunsTo k s t → s.out u <+: t.out u

/-- With nothing on the agenda, every symbol waiting is consumed within as many steps as there are symbols, whatever the
free value chooses (R195; the arbiter is the model's, log entry 4). -/
def Obligations.WaitingSymbolsAreConsumed : Prop :=
  ∀ s : State, s.Inv → s.agenda = [] →
    ∃ t, RunsTo (s.encIn.length + s.decIn.length) s t ∧ t.encIn = [] ∧ t.decIn = [] ∧ t.Inv

/-! ### The step -/

/-- A step runs the decoded operation: on its turn a unit consumes the head of its input stream, and the step is `exec` of
what the port's word decodes to (R40, R69, R70). With an empty agenda the unit is the one that has a symbol, and if both
have one, the one that the free value names (log entries 3, 4). -/
def Obligations.StepRunsTheDecodedSymbol : Prop :=
  ∀ (s : State) (w x : Symbol) (ws xs : List Symbol) (es : List Event),
    (∀ u, s.agenda = .turn u :: es → s.inp u = w :: ws →
      step s = exec (decode u w) ((s.setAgenda es).setInp u ws)) ∧
    (s.agenda = [] → s.encIn = w :: ws → s.decIn = [] → step s = exec (decode .enc w) { s with encIn := ws }) ∧
    (s.agenda = [] → s.encIn = [] → s.decIn = w :: ws → step s = exec (decode .dec w) { s with decIn := ws }) ∧
    (s.agenda = [] → s.encIn = w :: ws → s.decIn = x :: xs →
      (Config.turn s.tick = .enc →
        step s = exec (decode .enc w) { s with encIn := ws, tick := s.tick + 1 }) ∧
      (Config.turn s.tick = .dec →
        step s = exec (decode .dec x) { s with decIn := xs, tick := s.tick + 1 }))

/-- A unit with no symbol waiting takes no step and keeps its state (R176); with nothing to do at all the machine keeps
its whole state. -/
def Obligations.WaitingUnitKeepsItsState : Prop :=
  (∀ (s : State) (u : Agent) (es : List Event), s.agenda = .turn u :: es → s.inp u = [] →
    step s = .next { s with agenda := es }) ∧
  ∀ s : State, s.agenda = [] → s.encIn = [] → s.decIn = [] → step s = .next s

/-- The host's other acts (R40, R185): a symbol sent joins the tail of the unit's input, a symbol taken leaves the head of
its output, and nothing else changes (the events on the agenda are the model's, log entries 3, 8). -/
def Obligations.HostSendsAndTakes : Prop :=
  ∀ (s : State) (es : List Event) (w : Symbol),
    (s.agenda = .send .enc w :: es → step s = .next { s with agenda := es, encIn := s.encIn ++ [w] }) ∧
    (s.agenda = .send .dec w :: es → step s = .next { s with agenda := es, decIn := s.decIn ++ [w] }) ∧
    (s.agenda = .take .enc :: es → step s = .next { s with agenda := es, encOut := s.encOut.tail }) ∧
    (s.agenda = .take .dec :: es → step s = .next { s with agenda := es, decOut := s.decOut.tail })

/-- The step after a symbol is offered runs exactly that symbol's operation (log entries 11, 12). -/
def Obligations.OfferedSymbolIsRunNext : Prop :=
  ∀ (s : State) (w : Nat), w < 2 ^ 10 →
    ∃ i, decodeTableWord 16 w = some i ∧ i.wellFormed = true ∧ step (s.withFetchWord 16 w) = exec i s

/-! ### Encoding -/

/-- Decoding the word of a well-formed operation on its port gives the operation back, for every operand (R60, R69, R70,
R82). -/
def Obligations.DecodeOfEncodeIsTheOperation : Prop :=
  ∀ i : Instr, i.wellFormed = true → decode i.agent (encode i) = i

/-- Every word of a port decodes to a well-formed operation of that port; a data word is the word of its operation, and
all 256 end markers mean the same (R60, R69, R70, R82). -/
def Obligations.EncodeOfDecodeIsTheWord : Prop :=
  ∀ (u : Agent) (w : Symbol), (decode u w).wellFormed = true ∧ (decode u w).agent = u ∧
    (eos w = false → encode (decode u w) = w) ∧
    (eos w = true → encode (decode u w) = 0x100#9 ∧ decode u w = decode u 0x100#9)

/-- The opcode table (R71): of each port's rows exactly one matches a word, and it is the row of the operation that the
word decodes to. -/
def Obligations.OneTableRowMatchesEachWord : Prop :=
  opcodeTable.length = 28 ∧
  ∀ (u : Agent) (w : Symbol),
    (opcodeTable.filter (fun r => r.port == u && r.matchesWord w)).map Row.op = [(decode u w).mnemonic]

/-- A few words written out from R60 and R68, and what they decode to. -/
def Obligations.SomeWordsDecodeAsWritten : Prop :=
  decode .enc 0b001001101#9 = .encByte 0x4D#8 ∧ decode .enc 0b110100101#9 = .encEnd ∧
    decode .dec 0b000001010#9 = .decWs 0x0A#8 ∧ decode .dec 0b001110101#9 = .decDigit 0x75#8 ∧
    decode .dec 0b001111010#9 = .decZ ∧ decode .dec 0b001111110#9 = .decBad 0x7E#8 ∧
    decode .dec 0b111111111#9 = .decEnd

/-- The four classes of R68, code by code, and how many codes each has. -/
def Obligations.ClassesOfCharacters : Prop :=
  (∀ c : Byte,
    (charClass c = .ws ↔ c.toNat ∈ [9, 10, 13, 32]) ∧
    (charClass c = .digit ↔ 33 ≤ c.toNat ∧ c.toNat ≤ 117) ∧
    (charClass c = .z ↔ c.toNat = 122) ∧
    (charClass c = .bad ↔ c.toNat ≤ 8 ∨ c.toNat = 11 ∨ c.toNat = 12 ∨ (14 ≤ c.toNat ∧ c.toNat ≤ 31) ∨
      (118 ≤ c.toNat ∧ c.toNat ≤ 121) ∨ 123 ≤ c.toNat)) ∧
  [CharClass.ws, .digit, .z, .bad].map (fun k => (List.range 256).countP (fun n => charClass (BitVec.ofNat 8 n) == k)) =
    [4, 85, 1, 166]

/-- `CHR` and `VAL` are inverse to each other, and `VAL` has no value outside 33 to 117 (R65, R66, R67). -/
def Obligations.ChrAndValAreInverse : Prop :=
  (∀ d : Nat, d < 85 → (chr d).toNat = 33 + d ∧ val (chr d) = some d) ∧
  ∀ c : Byte, (33 ≤ c.toNat ∧ c.toNat ≤ 117 → val c = some (c.toNat - 33) ∧ chr (c.toNat - 33) = c) ∧
    (¬(33 ≤ c.toNat ∧ c.toNat ≤ 117) → val c = none ∧ charClass c ≠ .digit)

/-- The port words of output symbols (R61): bit 8 is 0 and bits 7:0 the byte; or bit 8 is 1, bits 1:0 the status, bits 7:2
zero. -/
def Obligations.OutputSymbolWords : Prop :=
  (∀ b : Byte, (OutSym.data b).toSymbol.getLsbD 8 = false ∧ (OutSym.data b).toSymbol.extractLsb' 0 8 = b) ∧
  ∀ st : Status, (OutSym.done st).toSymbol.getLsbD 8 = true ∧ (OutSym.done st).toSymbol.extractLsb' 2 6 = 0#6 ∧
    (OutSym.done st).toSymbol.extractLsb' 0 2 = st.code

/-! ### The radix converters -/

/-- `digits(v)` is the one string of five base-85 digits with value `v`, and its first digit is at most 82 (R63, R91). -/
def Obligations.DigitsAreTheBase85Digits : Prop :=
  ∀ v : Nat, v < 2 ^ 32 →
    value (digits v) = v ∧ (∀ d ∈ digits v, d < 85) ∧ (digits v).headD 0 ≤ 82 ∧
    ∀ ds : List Nat, ds.length = 5 → (∀ d ∈ ds, d < 85) → value ds = v → ds = digits v

/-- `bytes` is the inverse of `pack` on four bytes, and takes the bytes of a 32-bit value most significant first; as
bit fields and as quotients (R112). -/
def Obligations.BytesInvertPack : Prop :=
  (∀ b0 b1 b2 b3 : Byte, bytesOf (pack [b0, b1, b2, b3]) = [b0, b1, b2, b3]) ∧
  ∀ x : BitVec 32, pack (bytesOf x.toNat) = x.toNat ∧
    bytesOf x.toNat = [x.extractLsb' 24 8, x.extractLsb' 16 8, x.extractLsb' 8 8, x.extractLsb' 0 8] ∧
    (bytesOf x.toNat).map BitVec.toNat =
      [x.toNat / 2 ^ 24, x.toNat / 2 ^ 16 % 256, x.toNat / 2 ^ 8 % 256, x.toNat % 256]

/-- Padding (R90, R111): a partial group of bytes packs as if zero bytes followed it; a partial group of digits has the
value of the digits followed by the digit 84. -/
def Obligations.PaddingOfPartialGroups : Prop :=
  (∀ bs : List Byte, 1 ≤ bs.length → bs.length ≤ 4 →
    pack bs = pack (bs ++ List.replicate (4 - bs.length) Config.padByte) ∧ pack bs < 2 ^ 32) ∧
  ∀ ds : List Nat, 2 ≤ ds.length → ds.length ≤ 4 →
    padded ds = value (ds ++ List.replicate (5 - ds.length) Config.padDigit) ∧
      padded ds = value ds * 85 ^ (5 - ds.length) + (85 ^ (5 - ds.length) - 1) ∧
      ((∀ d ∈ ds, d < 85) → padded ds ≤ 85 ^ 5 - 1)

/-- When a group of 2 to 5 digits overflows (R113): always with a first digit of 83 or 84, never with one of at most 81,
and with 82 exactly when the other four places, after padding, have value 14516046 or more. -/
def Obligations.OverflowThresholds : Prop :=
  ∀ (d : Nat) (ds : List Nat), d < 85 → (∀ x ∈ ds, x < 85) → 1 ≤ ds.length → ds.length ≤ 4 →
    (83 ≤ d → Overflows (padded (d :: ds))) ∧ (d ≤ 81 → ¬Overflows (padded (d :: ds))) ∧
    (d = 82 → (Overflows (padded (d :: ds)) ↔ 14516046 ≤ value (ds ++ List.replicate (4 - ds.length) 84)))

/-- The register form and the list form of the state (R36): the registers of a state of the invariants stand for exactly
one list of bytes and exactly one list of digits. -/
def Obligations.RegistersStandForOneList : Prop :=
  ∀ s : State, s.Inv →
    (∃! bs : List Byte, bs.length = s.encCnt.toNat ∧ beValue bs = s.encAcc.toNat) ∧
    ∃! ds : List Nat, ds.length = s.decCnt.toNat ∧ (∀ d ∈ ds, d < 85) ∧ value ds = s.decAcc.toNat

/-! ### Whole messages -/

/-- A run of ENC on a message emits `encode` of it and the end marker with status OK, and returns to the reset values, so
that the next message is handled alike (R140, R141, R182). The turns on the agenda are the model's (log entry 3). -/
def Obligations.EncoderRunIsEncode : Prop :=
  ∀ (bs : List Byte) (rest : List Symbol) (es : List Event) (s : State), EncAtReset s →
    s.encIn = messageSymbols bs ++ rest → s.agenda = turns .enc (bs.length + 1) es →
    RunsTo (bs.length + 1) s { s with
      encIn := rest, agenda := es, encOut := s.encOut ++ messageOutput (encodeMsg bs) .ok }

/-- A run of DEC on a message emits the bytes of `decode` and its status on the end marker, and returns to the reset
values (R140, R142, R182). The turns on the agenda are the model's (log entry 3). -/
def Obligations.DecoderRunIsDecode : Prop :=
  ∀ (cs : List Byte) (rest : List Symbol) (es : List Event) (s : State), DecAtReset s →
    s.decIn = messageSymbols cs ++ rest → s.agenda = turns .dec (cs.length + 1) es →
    RunsTo (cs.length + 1) s { s with
      decIn := rest, agenda := es, decOut := s.decOut ++ messageOutput (decodeMsg cs).2 (decodeMsg cs).1 }

/-- Messages follow one another on a port with no reset between them, and each is handled as if it were the first (R140,
R182, R184): the results of the runs are the messages' own, in order. The turns on the agenda are the model's (log entry
3). -/
def Obligations.MessagesAreIndependent : Prop :=
  ∀ (ms : List (List Byte)) (es : List Event) (s : State),
    (EncAtReset s → s.encIn = ms.flatMap messageSymbols → s.agenda = turns .enc (ms.flatMap messageSymbols).length es →
      ∃ t, RunsTo (ms.flatMap messageSymbols).length s t ∧ EncAtReset t ∧
        runResults .enc (ms.flatMap messageSymbols).length s = ms.map (fun m => (.ok, encodeMsg m))) ∧
    (DecAtReset s → s.decIn = ms.flatMap messageSymbols → s.agenda = turns .dec (ms.flatMap messageSymbols).length es →
      ∃ t, RunsTo (ms.flatMap messageSymbols).length s t ∧ DecAtReset t ∧
        runResults .dec (ms.flatMap messageSymbols).length s = ms.map decodeMsg)

/-- A run ends in the step that consumes the input end marker (R184): that step's output closes the run, with what the
run had emitted before (`bs`) and what the step adds; a step on a data symbol adds data symbols only and ends no run; a
reset of the unit drops the run in progress (R180, R194). The events on the agenda are the model's (log entry 3). -/
def Obligations.RunEndsWithItsEndMarker : Prop :=
  ∀ (u : Agent) (s t : State) (es : List Event),
    (∀ (w : Symbol) (ws : List Symbol), s.agenda = .turn u :: es → s.inp u = w :: ws → step s = .next t →
      ∃ (ds : List Byte) (st : Status),
        t.out u = s.out u ++ (if eos w then messageOutput ds st else ds.map OutSym.data) ∧
        ∀ (bs : List Byte) (ms : List Mark), endedRuns bs (stepMarks u s ++ ms) =
          if eos w then (st, bs ++ ds) :: endedRuns [] ms else endedRuns (bs ++ ds) ms) ∧
    ∀ (drop : Bool), s.agenda = .reset u drop :: es →
      ∀ (bs : List Byte) (ms : List Mark), endedRuns bs (stepMarks u s ++ ms) = endedRuns [] ms

/-- A message whose end marker does not arrive has no end and no result (R184), whatever its run had emitted before. The
turns on the agenda are the model's (log entry 3). -/
def Obligations.MessageWithoutEndHasNoResult : Prop :=
  ∀ (u : Agent) (cs bs : List Byte) (rest : List Symbol) (es : List Event) (s : State), s.Inv →
    s.inp u = cs.map dataSymbol ++ rest → s.agenda = turns u cs.length es →
    ∃ t, RunsTo cs.length s t ∧ t.Inv ∧ t.inp u = rest ∧ t.agenda = es ∧ endedRuns bs (history u cs.length s) = []

/-- A reset in mid-message (R180, R184, R194): the aborted message has no result, its data symbols stay on the output
stream, and none of them, nor any that its run had emitted before (`bs`), joins the result of the message that follows,
which is that message's own. The events on the agenda are the model's (log entry 3). -/
def Obligations.ResetAbortsTheRunInProgress : Prop :=
  ∀ (u : Agent) (cut m bs : List Byte) (rest : List Symbol) (es : List Event) (s : State), s.Inv →
    s.inp u = cut.map dataSymbol ++ messageSymbols m ++ rest →
    s.agenda = turns u cut.length (.reset u false :: turns u (m.length + 1) es) →
    let result := match u with
      | .enc => (Status.ok, encodeMsg m)
      | .dec => decodeMsg m
    ∃ (t : State) (lost : List Byte), RunsTo (cut.length + 1 + (m.length + 1)) s t ∧ t.inp u = rest ∧
      t.out u = s.out u ++ lost.map OutSym.data ++ messageOutput result.2 result.1 ∧
      endedRuns bs (history u (cut.length + 1 + (m.length + 1)) s) = [result]

/-- The units never read their outputs back (R20, R40): what a unit emits, and so the results of its runs, is the same
whatever stands on the output streams, and whether or not the host has removed symbols from them (R184). -/
def Obligations.OutputIsNeverReadBack : Prop :=
  ∀ (u : Agent) (k : Nat) (s : State),
    (∀ os os' : List OutSym, history u k { s with encOut := os, decOut := os' } = history u k s) ∧
    ∀ (v : Agent) (es : List Event), s.agenda = .take v :: es →
      history u (k + 1) s = history u k { s with agenda := es }

/-- The round-trip law (R144). -/
def Obligations.DecodeOfEncodeIsTheMessage : Prop :=
  ∀ bs : List Byte, decodeMsg (encodeMsg bs) = (.ok, bs)

/-- The round trip on the ports: ENC runs on a message, the host sends the characters that ENC emitted, and an end marker,
to DEC, and DEC emits the message with status OK (R141, R142, R144; the agenda is the model's, log entry 3). -/
def Obligations.RoundTripThroughBothUnits : Prop :=
  ∀ (bs : List Byte) (es : List Event) (s : State), EncAtReset s → DecAtReset s →
    s.encIn = messageSymbols bs → s.encOut = [] → s.decIn = [] →
    s.agenda = turns .enc (bs.length + 1) (sends .dec (messageSymbols (encodeMsg bs))
      (turns .dec ((encodeMsg bs).length + 1) es)) →
    RunsTo (bs.length + 1 + ((encodeMsg bs).length + 1) + ((encodeMsg bs).length + 1)) s { s with
      encIn := [], encOut := messageOutput (encodeMsg bs) .ok, agenda := es,
      decOut := s.decOut ++ messageOutput bs .ok }

/-- The length of an encoded message (R141): `5*(m - k) + k + (n + 1 if n > 0 else 0)`. -/
def Obligations.LengthOfEncodedMessage : Prop :=
  ∀ bs : List Byte, zeroGroups bs ≤ bs.length / 4 ∧
    (encodeMsg bs).length = 5 * (bs.length / 4 - zeroGroups bs) + zeroGroups bs +
      (if bs.length % 4 = 0 then 0 else bs.length % 4 + 1)

/-- Partial-group asymmetry (R145): 1, 2 or 3 trailing bytes give 2, 3 or 4 characters; 2, 3 or 4 trailing characters
give 1, 2 or 3 bytes when the decode succeeds, and nothing when it fails with Overflow. -/
def Obligations.PartialGroupAsymmetry : Prop :=
  (∀ pre tail : List Byte, pre.length % 4 = 0 → 1 ≤ tail.length → tail.length ≤ 3 →
    ∃ cs, encodeMsg (pre ++ tail) = encodeMsg pre ++ cs ∧ cs.length = tail.length + 1) ∧
  ∀ pre tail : List Byte, (pre.foldl Pass.char Pass.start).failed = .none →
    (pre.foldl Pass.char Pass.start).ds = [] → (∀ c ∈ tail, charClass c = .digit) → 2 ≤ tail.length →
    tail.length ≤ 4 →
    (∃ bs, decodeMsg (pre ++ tail) = (.ok, (decodeMsg pre).2 ++ bs) ∧ bs.length = tail.length - 1) ∨
      decodeMsg (pre ++ tail) = (.overflow, (decodeMsg pre).2)

/-- The zero shortcut (R146): an aligned group of four zero bytes is written `z`; `z` at a group boundary gives four zero
bytes, and what follows it is decoded as if it stood alone; no `z` is written for anything but an aligned full group of zeros, so
none for a partial group or for zero bytes that straddle a boundary. -/
def Obligations.ZeroShortcut : Prop :=
  (∀ pre post : List Byte, pre.length % 4 = 0 →
    encodeMsg (pre ++ [0, 0, 0, 0] ++ post) = encodeMsg pre ++ [0x7A#8] ++ encodeMsg post) ∧
  (∀ pre post : List Byte, (pre.foldl Pass.char Pass.start).failed = .none →
    (pre.foldl Pass.char Pass.start).ds = [] →
    decodeMsg (pre ++ 0x7A#8 :: post) =
      ((decodeMsg post).1, (decodeMsg pre).2 ++ [0, 0, 0, 0] ++ (decodeMsg post).2)) ∧
  (∀ bs : List Byte, (encodeMsg bs).count 0x7A#8 = zeroGroups bs) ∧
  encodeMsg [0, 0, 0, 0] = [0x7A#8] ∧ decodeMsg [0x7A#8] = (.ok, [0, 0, 0, 0]) ∧
  encodeMsg [1, 0, 0, 0, 0, 2] = [0x21#8, 0x3C#8, 0x3C#8, 0x2A#8, 0x22#8, 0x21#8, 0x21#8, 0x33#8]

/-- A message with a character of class BAD fails, wherever it stands, with InvalidCharacter unless an earlier error is
reported (R147). -/
def Obligations.BadCharacterFails : Prop :=
  ∀ (pre post : List Byte) (c : Byte), charClass c = .bad →
    (decodeMsg (pre ++ c :: post)).1 ≠ .ok ∧
    (decodeMsg (pre ++ c :: post)).1 =
      if (pre.foldl Pass.char Pass.start).failed = .none then .invalidCharacter
      else (pre.foldl Pass.char Pass.start).failed.status

/-- The truncation law (R148): the status is TruncatedGroup exactly when no error came earlier and the alphabet characters
leave one over the groups of five. -/
def Obligations.TruncationLaw : Prop :=
  ∀ cs : List Byte, (decodeMsg cs).1 = .truncatedGroup ↔
    (cs.foldl Pass.char Pass.start).failed = .none ∧
      (cs.filter (fun c => charClass c == .digit)).length % Config.groupChars = 1

/-- The overflow law (R149): `s8W-!` gives four bytes FF; every group of five characters with value 2^32 or more, the
least of which is `s8W-"`, has status Overflow. -/
def Obligations.OverflowLaw : Prop :=
  decodeMsg [0x73#8, 0x38#8, 0x57#8, 0x2D#8, 0x21#8] = (.ok, [0xFF#8, 0xFF#8, 0xFF#8, 0xFF#8]) ∧
  value [82, 23, 54, 12, 1] = 2 ^ 32 ∧
  decodeMsg [0x73#8, 0x38#8, 0x57#8, 0x2D#8, 0x22#8] = (.overflow, []) ∧
  ∀ ds : List Nat, ds.length = 5 → (∀ d ∈ ds, d < 85) → 2 ^ 32 ≤ value ds → decodeMsg (ds.map chr) = (.overflow, [])

/-- Empty input (R150), on the whole-message functions and on the ports. -/
def Obligations.EmptyMessages : Prop :=
  encodeMsg [] = [] ∧ decodeMsg [] = (.ok, []) ∧ decodeResult [] = .bytes [] ∧
  (∀ s : State, EncAtReset s → exec .encEnd s = .next { s with encOut := s.encOut ++ [.done .ok] }) ∧
  ∀ s : State, DecAtReset s → exec .decEnd s = .next { s with decOut := s.decOut ++ [.done .ok] }

/-- Whitespace tolerance (R151), failing inputs included. -/
def Obligations.WhitespaceIsSkipped : Prop :=
  ∀ cs : List Byte, decodeMsg cs = decodeMsg (cs.filter (fun c => charClass c != .ws))

/-- What does not hold (R152): `decode` is not injective, and `encode` of a decoded text need not be the text: `!!!!!`
and `z`, `9j` and `9k`, and a text with whitespace. -/
def Obligations.DecodeIsNotInjective : Prop :=
  decodeMsg [0x21#8, 0x21#8, 0x21#8, 0x21#8, 0x21#8] = (.ok, [0, 0, 0, 0]) ∧
  decodeMsg [0x7A#8] = (.ok, [0, 0, 0, 0]) ∧
  decodeMsg [0x39#8, 0x6A#8] = (.ok, [0x4D#8]) ∧ decodeMsg [0x39#8, 0x6B#8] = (.ok, [0x4D#8]) ∧
  decodeMsg [0x7A#8, 0x20#8] = (.ok, [0, 0, 0, 0]) ∧
  ∃ cs : List Byte, (decodeMsg cs).1 = .ok ∧ encodeMsg (decodeMsg cs).2 ≠ cs

/-- `decode_result` (R143): the bytes when the status is OK, the failure alone otherwise. -/
def Obligations.FailedDecodeGivesNoBytes : Prop :=
  ∀ cs : List Byte, ((decodeMsg cs).1 = .ok → decodeResult cs = .bytes (decodeMsg cs).2) ∧
    ((decodeMsg cs).1 ≠ .ok → decodeResult cs = .failure (decodeMsg cs).1)
end

