-- ==== Sys2Proof/Laws/Operands.lean ====
section
/-! SUPPORT. Facts about the tables, the radix converters and the operation decode. -/

namespace Sys2Proof.Machine

/-! ### Tables -/

theorem charClass_digit_iff (c : Byte) : charClass c = .digit ↔ 33 ≤ c.toNat ∧ c.toNat ≤ 117 := by
  revert c; decide

theorem chr_toNat {d : Nat} (h : d < 85) : (chr d).toNat = 33 + d := by
  simp only [chr, Config.chFirst, BitVec.toNat_ofNat]; omega

theorem charClass_chr {d : Nat} (h : d < 85) : charClass (chr d) = .digit := by
  rw [charClass_digit_iff, chr_toNat h]; omega

theorem val_of_digit {c : Byte} (h : charClass c = .digit) : val c = some (c.toNat - 33) := by
  simp [val, h]

theorem val_of_not_digit {c : Byte} (h : charClass c ≠ .digit) : val c = none := by
  simp [val, h]

theorem val_lt {c : Byte} {d : Nat} (h : val c = some d) : d < 85 := by
  by_cases hc : charClass c = .digit
  · rw [val_of_digit hc] at h
    have := (charClass_digit_iff c).1 hc
    simp at h; omega
  · rw [val_of_not_digit hc] at h; cases h

/-! ### Bytes to characters -/

@[simp] theorem beValue_nil : beValue [] = 0 := rfl

theorem beValue_snoc (bs : List Byte) (b : Byte) : beValue (bs ++ [b]) = beValue bs * 256 + b.toNat := by
  simp [beValue]

theorem beValue_lt (bs : List Byte) : beValue bs < 256 ^ bs.length := by
  induction bs using List.reverseRecOn with
  | nil => simp
  | append_singleton bs b ih =>
    rw [beValue_snoc, List.length_append, List.length_singleton, pow_succ]
    have := b.isLt
    omega

theorem pack_four (b0 b1 b2 b3 : Byte) : pack [b0, b1, b2, b3] = beValue [b0, b1, b2, b3] := by
  simp [pack]

@[simp] theorem length_digits (v : Nat) : (digits v).length = 5 := rfl

theorem digits_lt {v d : Nat} (h : d ∈ digits v) : d < 85 := by
  simp only [digits, Config.radix, List.mem_cons, List.not_mem_nil, or_false] at h
  omega

theorem value_digits {v : Nat} (h : v < 85 ^ 5) : value (digits v) = v := by
  simp only [value, digits, Config.radix, List.foldl_cons, List.foldl_nil]
  omega

@[simp] theorem length_chars (v : Nat) : (chars v).length = 5 := rfl

theorem mem_chars {v : Nat} {c : Byte} (h : c ∈ chars v) : 33 ≤ c.toNat ∧ c.toNat ≤ 117 := by
  obtain ⟨d, hd, rfl⟩ := List.mem_map.1 h
  have := digits_lt hd
  rw [chr_toNat this]; omega

theorem length_encFull (v : Nat) : (encFull v).length = if v = 0 then 1 else 5 := by
  unfold encFull; split <;> rfl

theorem length_encPartial (n v : Nat) (h : n ≤ 4) : (encPartial n v).length = n + 1 := by
  simp [encPartial]; omega

/-! ### Characters to bytes -/

@[simp] theorem value_nil : value [] = 0 := rfl

theorem value_snoc (ds : List Nat) (d : Nat) : value (ds ++ [d]) = value ds * 85 + d := by
  simp [value]

theorem value_lt {ds : List Nat} (h : ∀ d ∈ ds, d < 85) : value ds < 85 ^ ds.length := by
  induction ds using List.reverseRecOn with
  | nil => simp
  | append_singleton ds d ih =>
    rw [value_snoc, List.length_append, List.length_singleton, pow_succ]
    have := ih fun x hx => h x (by simp [hx])
    have := h d (by simp)
    omega

@[simp] theorem length_bytesOf (t : Nat) : (bytesOf t).length = 4 := rfl

/-! ### Symbols -/

@[simp] theorem eos_dataSymbol (b : Byte) : eos (dataSymbol b) = false := by
  revert b; decide

@[simp] theorem dataBits_dataSymbol (b : Byte) : dataBits (dataSymbol b) = b := by
  simp [dataBits, dataSymbol, BitVec.setWidth_setWidth_of_le]

@[simp] theorem eos_endSymbol : eos endSymbol = true := rfl

@[simp] theorem decode_enc_dataSymbol (b : Byte) : decode .enc (dataSymbol b) = .encByte b := by
  simp [decode]

@[simp] theorem decode_dec_dataSymbol (c : Byte) : decode .dec (dataSymbol c) = decChar c := by
  simp [decode]

@[simp] theorem decode_enc_endSymbol : decode .enc endSymbol = .encEnd := rfl

@[simp] theorem decode_dec_endSymbol : decode .dec endSymbol = .decEnd := rfl

/-- What the decoder can make of a character, with the class that says so (R70). -/
theorem decChar_cases (c : Byte) :
    (charClass c = .ws ∧ decChar c = .decWs c) ∨ (charClass c = .digit ∧ decChar c = .decDigit c) ∨
      (charClass c = .z ∧ decChar c = .decZ) ∨ (charClass c = .bad ∧ decChar c = .decBad c) := by
  unfold decChar
  cases h : charClass c <;> simp

end Sys2Proof.Machine
end

