-- ==== Sys2Proof/Laws/Message.lean ====
section
/-! SUPPORT. The equations of the whole-message functions: how `encode` takes a group off, and what one character does to
the pass of `decode`. -/

namespace Sys2Proof.Machine

/-! ### `encode` -/

@[simp] theorem encodeMsg_nil : encodeMsg [] = [] := rfl

theorem encodeMsg_four (b0 b1 b2 b3 : Byte) (bs : List Byte) :
    encodeMsg (b0 :: b1 :: b2 :: b3 :: bs) = encFull (pack [b0, b1, b2, b3]) ++ encodeMsg bs := rfl

theorem encodeMsg_partial {bs : List Byte} (h1 : 1 ≤ bs.length) (h3 : bs.length ≤ 3) :
    encodeMsg bs = encPartial bs.length (pack bs) := by
  match bs, h1, h3 with
  | [_], _, _ => rfl
  | [_, _], _, _ => rfl
  | [_, _, _], _, _ => rfl

theorem zeroGroups_four (b0 b1 b2 b3 : Byte) (bs : List Byte) :
    zeroGroups (b0 :: b1 :: b2 :: b3 :: bs) = (if pack [b0, b1, b2, b3] = 0 then 1 else 0) + zeroGroups bs := rfl

theorem zeroGroups_short {bs : List Byte} (h : bs.length ≤ 3) : zeroGroups bs = 0 := by
  match bs, h with
  | [], _ => rfl
  | [_], _ => rfl
  | [_, _], _ => rfl
  | [_, _, _], _ => rfl

/-- The induction that `encodeMsg` is made for: a message shorter than a group, or a group and a message. -/
theorem group_induction {motive : List Byte → Prop} (short : ∀ bs : List Byte, bs.length ≤ 3 → motive bs)
    (four : ∀ b0 b1 b2 b3 bs, motive bs → motive (b0 :: b1 :: b2 :: b3 :: bs)) : ∀ bs, motive bs
  | b0 :: b1 :: b2 :: b3 :: bs => four b0 b1 b2 b3 bs (group_induction short four bs)
  | [] => short _ (by simp)
  | [_] => short _ (by simp)
  | [_, _] => short _ (by simp)
  | [_, _, _] => short _ (by simp)

/-! ### The pass of `decode` -/

variable {p : Pass} {c : Byte} {d : Nat}

theorem Pass.digit_short (h : p.ds.length < 4) : p.digit d = { p with ds := p.ds ++ [d] } := by
  have h5 : ¬(p.ds ++ [d]).length = Config.groupChars := by
    rw [List.length_append, List.length_singleton]; simp only [Config.groupChars]; omega
  simp only [Pass.digit, if_neg h5]

theorem Pass.digit_overflow (h : p.ds.length = 4) (ht : 2 ^ 32 ≤ value (p.ds ++ [d])) :
    p.digit d = { p with ds := [], failed := .overflow } := by
  have h5 : (p.ds ++ [d]).length = Config.groupChars := by rw [List.length_append, h]; rfl
  have ht : Overflows (value (p.ds ++ [d])) := ht
  simp only [Pass.digit, if_pos h5, if_pos ht]

theorem Pass.digit_fits (h : p.ds.length = 4) (ht : value (p.ds ++ [d]) < 2 ^ 32) :
    p.digit d = { p with ds := [], out := p.out ++ bytesOf (value (p.ds ++ [d])) } := by
  have h5 : (p.ds ++ [d]).length = Config.groupChars := by rw [List.length_append, h]; rfl
  have ht : ¬Overflows (value (p.ds ++ [d])) := Nat.not_le.2 ht
  simp only [Pass.digit, if_pos h5, if_neg ht]

theorem Pass.char_failed (h : p.failed ≠ .none) (c : Byte) : p.char c = p := by
  simp [Pass.char, h]

theorem Pass.foldl_failed (h : p.failed ≠ .none) (cs : List Byte) : cs.foldl Pass.char p = p := by
  induction cs with
  | nil => rfl
  | cons c cs ih => rw [List.foldl_cons, Pass.char_failed h, ih]

theorem Pass.char_ws (hc : charClass c = .ws) : p.char c = p := by
  unfold Pass.char
  split <;> simp [hc]

theorem Pass.char_bad (h : p.failed = .none) (hc : charClass c = .bad) :
    p.char c = { p with failed := .invalidCharacter } := by
  simp [Pass.char, h, hc]

theorem Pass.char_z_boundary (h : p.failed = .none) (hc : charClass c = .z) (hd : p.ds = []) :
    p.char c = { p with out := p.out ++ [0, 0, 0, 0] } := by
  simp [Pass.char, h, hc, hd]

theorem Pass.char_z_inside (h : p.failed = .none) (hc : charClass c = .z) (hd : p.ds ≠ []) :
    p.char c = { p with failed := .invalidCharacter } := by
  simp [Pass.char, h, hc, hd]

theorem Pass.char_digit (h : p.failed = .none) (hc : charClass c = .digit) : p.char c = p.digit (c.toNat - 33) := by
  simp [Pass.char, h, hc]

theorem Pass.finish_failed (h : p.failed ≠ .none) : p.finish = (p.failed.status, p.out) := by
  simp [Pass.finish, h]

theorem Pass.finish_clean (h : p.failed = .none) (hd : p.ds = []) : p.finish = (.ok, p.out) := by
  simp [Pass.finish, h, hd]

theorem Pass.finish_one (h : p.failed = .none) (hd : p.ds.length = 1) : p.finish = (.truncatedGroup, p.out) := by
  simp [Pass.finish, h, hd]

theorem Pass.finish_overflow (h : p.failed = .none) (hd : 2 ≤ p.ds.length) (ht : 2 ^ 32 ≤ padded p.ds) :
    p.finish = (.overflow, p.out) := by
  have h0 : p.ds.length ≠ 0 := by omega
  have h1 : p.ds.length ≠ 1 := by omega
  have : Overflows (padded p.ds) := ht
  simp only [Pass.finish, h, ne_eq, not_true_eq_false, if_false, if_neg h0, if_neg h1, if_pos this]

theorem Pass.finish_fits (h : p.failed = .none) (hd : 2 ≤ p.ds.length) (ht : padded p.ds < 2 ^ 32) :
    p.finish = (.ok, p.out ++ (bytesOf (padded p.ds)).take (p.ds.length - 1)) := by
  have h0 : p.ds.length ≠ 0 := by omega
  have h1 : p.ds.length ≠ 1 := by omega
  have : ¬Overflows (padded p.ds) := Nat.not_le.2 ht
  simp only [Pass.finish, h, ne_eq, not_true_eq_false, if_false, if_neg h0, if_neg h1, if_neg this]

end Sys2Proof.Machine
end

