-- ==== Sys2Proof/Laws/State.lean ====
section
/-! SUPPORT. What each named operation does to each field of the state. -/

namespace Sys2Proof.Machine.State

/-! ### Accessors by unit -/

@[simp] theorem inp_enc (s : State) : s.inp .enc = s.encIn := rfl
@[simp] theorem out_enc (s : State) : s.out .enc = s.encOut := rfl
@[simp] theorem inp_dec (s : State) : s.inp .dec = s.decIn := rfl
@[simp] theorem out_dec (s : State) : s.out .dec = s.decOut := rfl

/-! ### `setInp` -/

@[simp] theorem setInp_encAcc (s : State) (u : Agent) (ws : List Symbol) : (s.setInp u ws).encAcc = s.encAcc := by
  cases u <;> rfl
@[simp] theorem setInp_encCnt (s : State) (u : Agent) (ws : List Symbol) : (s.setInp u ws).encCnt = s.encCnt := by
  cases u <;> rfl
@[simp] theorem setInp_decAcc (s : State) (u : Agent) (ws : List Symbol) : (s.setInp u ws).decAcc = s.decAcc := by
  cases u <;> rfl
@[simp] theorem setInp_decCnt (s : State) (u : Agent) (ws : List Symbol) : (s.setInp u ws).decCnt = s.decCnt := by
  cases u <;> rfl
@[simp] theorem setInp_decErr (s : State) (u : Agent) (ws : List Symbol) : (s.setInp u ws).decErr = s.decErr := by
  cases u <;> rfl
@[simp] theorem setInp_agenda (s : State) (u : Agent) (ws : List Symbol) : (s.setInp u ws).agenda = s.agenda := by
  cases u <;> rfl
@[simp] theorem setInp_tick (s : State) (u : Agent) (ws : List Symbol) : (s.setInp u ws).tick = s.tick := by
  cases u <;> rfl
@[simp] theorem setInp_enc_encIn (s : State) (ws : List Symbol) : (s.setInp .enc ws).encIn = ws := rfl
@[simp] theorem setInp_enc_encOut (s : State) (ws : List Symbol) : (s.setInp .enc ws).encOut = s.encOut := rfl
@[simp] theorem setInp_enc_decIn (s : State) (ws : List Symbol) : (s.setInp .enc ws).decIn = s.decIn := rfl
@[simp] theorem setInp_enc_decOut (s : State) (ws : List Symbol) : (s.setInp .enc ws).decOut = s.decOut := rfl
@[simp] theorem setInp_dec_encIn (s : State) (ws : List Symbol) : (s.setInp .dec ws).encIn = s.encIn := rfl
@[simp] theorem setInp_dec_encOut (s : State) (ws : List Symbol) : (s.setInp .dec ws).encOut = s.encOut := rfl
@[simp] theorem setInp_dec_decIn (s : State) (ws : List Symbol) : (s.setInp .dec ws).decIn = ws := rfl
@[simp] theorem setInp_dec_decOut (s : State) (ws : List Symbol) : (s.setInp .dec ws).decOut = s.decOut := rfl

/-! ### `setOut` -/

@[simp] theorem setOut_encAcc (s : State) (u : Agent) (os : List OutSym) : (s.setOut u os).encAcc = s.encAcc := by
  cases u <;> rfl
@[simp] theorem setOut_encCnt (s : State) (u : Agent) (os : List OutSym) : (s.setOut u os).encCnt = s.encCnt := by
  cases u <;> rfl
@[simp] theorem setOut_decAcc (s : State) (u : Agent) (os : List OutSym) : (s.setOut u os).decAcc = s.decAcc := by
  cases u <;> rfl
@[simp] theorem setOut_decCnt (s : State) (u : Agent) (os : List OutSym) : (s.setOut u os).decCnt = s.decCnt := by
  cases u <;> rfl
@[simp] theorem setOut_decErr (s : State) (u : Agent) (os : List OutSym) : (s.setOut u os).decErr = s.decErr := by
  cases u <;> rfl
@[simp] theorem setOut_agenda (s : State) (u : Agent) (os : List OutSym) : (s.setOut u os).agenda = s.agenda := by
  cases u <;> rfl
@[simp] theorem setOut_tick (s : State) (u : Agent) (os : List OutSym) : (s.setOut u os).tick = s.tick := by
  cases u <;> rfl
@[simp] theorem setOut_enc_encIn (s : State) (os : List OutSym) : (s.setOut .enc os).encIn = s.encIn := rfl
@[simp] theorem setOut_enc_encOut (s : State) (os : List OutSym) : (s.setOut .enc os).encOut = os := rfl
@[simp] theorem setOut_enc_decIn (s : State) (os : List OutSym) : (s.setOut .enc os).decIn = s.decIn := rfl
@[simp] theorem setOut_enc_decOut (s : State) (os : List OutSym) : (s.setOut .enc os).decOut = s.decOut := rfl
@[simp] theorem setOut_dec_encIn (s : State) (os : List OutSym) : (s.setOut .dec os).encIn = s.encIn := rfl
@[simp] theorem setOut_dec_encOut (s : State) (os : List OutSym) : (s.setOut .dec os).encOut = s.encOut := rfl
@[simp] theorem setOut_dec_decIn (s : State) (os : List OutSym) : (s.setOut .dec os).decIn = s.decIn := rfl
@[simp] theorem setOut_dec_decOut (s : State) (os : List OutSym) : (s.setOut .dec os).decOut = os := rfl

/-! ### `emit` -/

@[simp] theorem emit_encAcc (s : State) (u : Agent) (bs : List Byte) : (s.emit u bs).encAcc = s.encAcc := by
  cases u <;> rfl
@[simp] theorem emit_encCnt (s : State) (u : Agent) (bs : List Byte) : (s.emit u bs).encCnt = s.encCnt := by
  cases u <;> rfl
@[simp] theorem emit_decAcc (s : State) (u : Agent) (bs : List Byte) : (s.emit u bs).decAcc = s.decAcc := by
  cases u <;> rfl
@[simp] theorem emit_decCnt (s : State) (u : Agent) (bs : List Byte) : (s.emit u bs).decCnt = s.decCnt := by
  cases u <;> rfl
@[simp] theorem emit_decErr (s : State) (u : Agent) (bs : List Byte) : (s.emit u bs).decErr = s.decErr := by
  cases u <;> rfl
@[simp] theorem emit_agenda (s : State) (u : Agent) (bs : List Byte) : (s.emit u bs).agenda = s.agenda := by
  cases u <;> rfl
@[simp] theorem emit_tick (s : State) (u : Agent) (bs : List Byte) : (s.emit u bs).tick = s.tick := by
  cases u <;> rfl
@[simp] theorem emit_enc_encIn (s : State) (bs : List Byte) : (s.emit .enc bs).encIn = s.encIn := rfl
@[simp] theorem emit_enc_encOut (s : State) (bs : List Byte) : (s.emit .enc bs).encOut = s.encOut ++ bs.map OutSym.data := rfl
@[simp] theorem emit_enc_decIn (s : State) (bs : List Byte) : (s.emit .enc bs).decIn = s.decIn := rfl
@[simp] theorem emit_enc_decOut (s : State) (bs : List Byte) : (s.emit .enc bs).decOut = s.decOut := rfl
@[simp] theorem emit_dec_encIn (s : State) (bs : List Byte) : (s.emit .dec bs).encIn = s.encIn := rfl
@[simp] theorem emit_dec_encOut (s : State) (bs : List Byte) : (s.emit .dec bs).encOut = s.encOut := rfl
@[simp] theorem emit_dec_decIn (s : State) (bs : List Byte) : (s.emit .dec bs).decIn = s.decIn := rfl
@[simp] theorem emit_dec_decOut (s : State) (bs : List Byte) : (s.emit .dec bs).decOut = s.decOut ++ bs.map OutSym.data := rfl

/-! ### `emitDone` -/

@[simp] theorem emitDone_encAcc (s : State) (u : Agent) (st : Status) : (s.emitDone u st).encAcc = s.encAcc := by
  cases u <;> rfl
@[simp] theorem emitDone_encCnt (s : State) (u : Agent) (st : Status) : (s.emitDone u st).encCnt = s.encCnt := by
  cases u <;> rfl
@[simp] theorem emitDone_decAcc (s : State) (u : Agent) (st : Status) : (s.emitDone u st).decAcc = s.decAcc := by
  cases u <;> rfl
@[simp] theorem emitDone_decCnt (s : State) (u : Agent) (st : Status) : (s.emitDone u st).decCnt = s.decCnt := by
  cases u <;> rfl
@[simp] theorem emitDone_decErr (s : State) (u : Agent) (st : Status) : (s.emitDone u st).decErr = s.decErr := by
  cases u <;> rfl
@[simp] theorem emitDone_agenda (s : State) (u : Agent) (st : Status) : (s.emitDone u st).agenda = s.agenda := by
  cases u <;> rfl
@[simp] theorem emitDone_tick (s : State) (u : Agent) (st : Status) : (s.emitDone u st).tick = s.tick := by
  cases u <;> rfl
@[simp] theorem emitDone_enc_encIn (s : State) (st : Status) : (s.emitDone .enc st).encIn = s.encIn := rfl
@[simp] theorem emitDone_enc_encOut (s : State) (st : Status) : (s.emitDone .enc st).encOut = s.encOut ++ [OutSym.done st] := rfl
@[simp] theorem emitDone_enc_decIn (s : State) (st : Status) : (s.emitDone .enc st).decIn = s.decIn := rfl
@[simp] theorem emitDone_enc_decOut (s : State) (st : Status) : (s.emitDone .enc st).decOut = s.decOut := rfl
@[simp] theorem emitDone_dec_encIn (s : State) (st : Status) : (s.emitDone .dec st).encIn = s.encIn := rfl
@[simp] theorem emitDone_dec_encOut (s : State) (st : Status) : (s.emitDone .dec st).encOut = s.encOut := rfl
@[simp] theorem emitDone_dec_decIn (s : State) (st : Status) : (s.emitDone .dec st).decIn = s.decIn := rfl
@[simp] theorem emitDone_dec_decOut (s : State) (st : Status) : (s.emitDone .dec st).decOut = s.decOut ++ [OutSym.done st] := rfl

/-! ### `send` -/

@[simp] theorem send_encAcc (s : State) (u : Agent) (w : Symbol) : (s.send u w).encAcc = s.encAcc := by
  cases u <;> rfl
@[simp] theorem send_encCnt (s : State) (u : Agent) (w : Symbol) : (s.send u w).encCnt = s.encCnt := by
  cases u <;> rfl
@[simp] theorem send_decAcc (s : State) (u : Agent) (w : Symbol) : (s.send u w).decAcc = s.decAcc := by
  cases u <;> rfl
@[simp] theorem send_decCnt (s : State) (u : Agent) (w : Symbol) : (s.send u w).decCnt = s.decCnt := by
  cases u <;> rfl
@[simp] theorem send_decErr (s : State) (u : Agent) (w : Symbol) : (s.send u w).decErr = s.decErr := by
  cases u <;> rfl
@[simp] theorem send_agenda (s : State) (u : Agent) (w : Symbol) : (s.send u w).agenda = s.agenda := by
  cases u <;> rfl
@[simp] theorem send_tick (s : State) (u : Agent) (w : Symbol) : (s.send u w).tick = s.tick := by
  cases u <;> rfl
@[simp] theorem send_enc_encIn (s : State) (w : Symbol) : (s.send .enc w).encIn = s.encIn ++ [w] := rfl
@[simp] theorem send_enc_encOut (s : State) (w : Symbol) : (s.send .enc w).encOut = s.encOut := rfl
@[simp] theorem send_enc_decIn (s : State) (w : Symbol) : (s.send .enc w).decIn = s.decIn := rfl
@[simp] theorem send_enc_decOut (s : State) (w : Symbol) : (s.send .enc w).decOut = s.decOut := rfl
@[simp] theorem send_dec_encIn (s : State) (w : Symbol) : (s.send .dec w).encIn = s.encIn := rfl
@[simp] theorem send_dec_encOut (s : State) (w : Symbol) : (s.send .dec w).encOut = s.encOut := rfl
@[simp] theorem send_dec_decIn (s : State) (w : Symbol) : (s.send .dec w).decIn = s.decIn ++ [w] := rfl
@[simp] theorem send_dec_decOut (s : State) (w : Symbol) : (s.send .dec w).decOut = s.decOut := rfl

/-! ### `take` -/

@[simp] theorem take_encAcc (s : State) (u : Agent)  : (s.take u).encAcc = s.encAcc := by
  cases u <;> rfl
@[simp] theorem take_encCnt (s : State) (u : Agent)  : (s.take u).encCnt = s.encCnt := by
  cases u <;> rfl
@[simp] theorem take_decAcc (s : State) (u : Agent)  : (s.take u).decAcc = s.decAcc := by
  cases u <;> rfl
@[simp] theorem take_decCnt (s : State) (u : Agent)  : (s.take u).decCnt = s.decCnt := by
  cases u <;> rfl
@[simp] theorem take_decErr (s : State) (u : Agent)  : (s.take u).decErr = s.decErr := by
  cases u <;> rfl
@[simp] theorem take_agenda (s : State) (u : Agent)  : (s.take u).agenda = s.agenda := by
  cases u <;> rfl
@[simp] theorem take_tick (s : State) (u : Agent)  : (s.take u).tick = s.tick := by
  cases u <;> rfl
@[simp] theorem take_enc_encIn (s : State)  : (s.take .enc).encIn = s.encIn := rfl
@[simp] theorem take_enc_encOut (s : State)  : (s.take .enc).encOut = s.encOut.tail := rfl
@[simp] theorem take_enc_decIn (s : State)  : (s.take .enc).decIn = s.decIn := rfl
@[simp] theorem take_enc_decOut (s : State)  : (s.take .enc).decOut = s.decOut := rfl
@[simp] theorem take_dec_encIn (s : State)  : (s.take .dec).encIn = s.encIn := rfl
@[simp] theorem take_dec_encOut (s : State)  : (s.take .dec).encOut = s.encOut := rfl
@[simp] theorem take_dec_decIn (s : State)  : (s.take .dec).decIn = s.decIn := rfl
@[simp] theorem take_dec_decOut (s : State)  : (s.take .dec).decOut = s.decOut.tail := rfl

/-! ### `setAgenda` -/

@[simp] theorem setAgenda_encAcc (s : State) (es : List Event) : (s.setAgenda es).encAcc = s.encAcc := rfl
@[simp] theorem setAgenda_encCnt (s : State) (es : List Event) : (s.setAgenda es).encCnt = s.encCnt := rfl
@[simp] theorem setAgenda_decAcc (s : State) (es : List Event) : (s.setAgenda es).decAcc = s.decAcc := rfl
@[simp] theorem setAgenda_decCnt (s : State) (es : List Event) : (s.setAgenda es).decCnt = s.decCnt := rfl
@[simp] theorem setAgenda_decErr (s : State) (es : List Event) : (s.setAgenda es).decErr = s.decErr := rfl
@[simp] theorem setAgenda_encIn (s : State) (es : List Event) : (s.setAgenda es).encIn = s.encIn := rfl
@[simp] theorem setAgenda_encOut (s : State) (es : List Event) : (s.setAgenda es).encOut = s.encOut := rfl
@[simp] theorem setAgenda_decIn (s : State) (es : List Event) : (s.setAgenda es).decIn = s.decIn := rfl
@[simp] theorem setAgenda_decOut (s : State) (es : List Event) : (s.setAgenda es).decOut = s.decOut := rfl
@[simp] theorem setAgenda_agenda (s : State) (es : List Event) : (s.setAgenda es).agenda = es := rfl
@[simp] theorem setAgenda_tick (s : State) (es : List Event) : (s.setAgenda es).tick = s.tick := rfl

/-! ### `setEnc` -/

@[simp] theorem setEnc_encAcc (s : State) (a n : Nat) : (s.setEnc a n).encAcc = BitVec.ofNat 32 a := rfl
@[simp] theorem setEnc_encCnt (s : State) (a n : Nat) : (s.setEnc a n).encCnt = BitVec.ofNat 2 n := rfl
@[simp] theorem setEnc_decAcc (s : State) (a n : Nat) : (s.setEnc a n).decAcc = s.decAcc := rfl
@[simp] theorem setEnc_decCnt (s : State) (a n : Nat) : (s.setEnc a n).decCnt = s.decCnt := rfl
@[simp] theorem setEnc_decErr (s : State) (a n : Nat) : (s.setEnc a n).decErr = s.decErr := rfl
@[simp] theorem setEnc_encIn (s : State) (a n : Nat) : (s.setEnc a n).encIn = s.encIn := rfl
@[simp] theorem setEnc_encOut (s : State) (a n : Nat) : (s.setEnc a n).encOut = s.encOut := rfl
@[simp] theorem setEnc_decIn (s : State) (a n : Nat) : (s.setEnc a n).decIn = s.decIn := rfl
@[simp] theorem setEnc_decOut (s : State) (a n : Nat) : (s.setEnc a n).decOut = s.decOut := rfl
@[simp] theorem setEnc_agenda (s : State) (a n : Nat) : (s.setEnc a n).agenda = s.agenda := rfl
@[simp] theorem setEnc_tick (s : State) (a n : Nat) : (s.setEnc a n).tick = s.tick := rfl

/-! ### `setDec` -/

@[simp] theorem setDec_encAcc (s : State) (a n : Nat) : (s.setDec a n).encAcc = s.encAcc := rfl
@[simp] theorem setDec_encCnt (s : State) (a n : Nat) : (s.setDec a n).encCnt = s.encCnt := rfl
@[simp] theorem setDec_decAcc (s : State) (a n : Nat) : (s.setDec a n).decAcc = BitVec.ofNat 32 a := rfl
@[simp] theorem setDec_decCnt (s : State) (a n : Nat) : (s.setDec a n).decCnt = BitVec.ofNat 3 n := rfl
@[simp] theorem setDec_decErr (s : State) (a n : Nat) : (s.setDec a n).decErr = s.decErr := rfl
@[simp] theorem setDec_encIn (s : State) (a n : Nat) : (s.setDec a n).encIn = s.encIn := rfl
@[simp] theorem setDec_encOut (s : State) (a n : Nat) : (s.setDec a n).encOut = s.encOut := rfl
@[simp] theorem setDec_decIn (s : State) (a n : Nat) : (s.setDec a n).decIn = s.decIn := rfl
@[simp] theorem setDec_decOut (s : State) (a n : Nat) : (s.setDec a n).decOut = s.decOut := rfl
@[simp] theorem setDec_agenda (s : State) (a n : Nat) : (s.setDec a n).agenda = s.agenda := rfl
@[simp] theorem setDec_tick (s : State) (a n : Nat) : (s.setDec a n).tick = s.tick := rfl

/-! ### `rearmEnc` -/

@[simp] theorem rearmEnc_encAcc (s : State) : (s.rearmEnc).encAcc = 0 := rfl
@[simp] theorem rearmEnc_encCnt (s : State) : (s.rearmEnc).encCnt = 0 := rfl
@[simp] theorem rearmEnc_decAcc (s : State) : (s.rearmEnc).decAcc = s.decAcc := rfl
@[simp] theorem rearmEnc_decCnt (s : State) : (s.rearmEnc).decCnt = s.decCnt := rfl
@[simp] theorem rearmEnc_decErr (s : State) : (s.rearmEnc).decErr = s.decErr := rfl
@[simp] theorem rearmEnc_encIn (s : State) : (s.rearmEnc).encIn = s.encIn := rfl
@[simp] theorem rearmEnc_encOut (s : State) : (s.rearmEnc).encOut = s.encOut := rfl
@[simp] theorem rearmEnc_decIn (s : State) : (s.rearmEnc).decIn = s.decIn := rfl
@[simp] theorem rearmEnc_decOut (s : State) : (s.rearmEnc).decOut = s.decOut := rfl
@[simp] theorem rearmEnc_agenda (s : State) : (s.rearmEnc).agenda = s.agenda := rfl
@[simp] theorem rearmEnc_tick (s : State) : (s.rearmEnc).tick = s.tick := rfl

/-! ### `rearmDec` -/

@[simp] theorem rearmDec_encAcc (s : State) : (s.rearmDec).encAcc = s.encAcc := rfl
@[simp] theorem rearmDec_encCnt (s : State) : (s.rearmDec).encCnt = s.encCnt := rfl
@[simp] theorem rearmDec_decAcc (s : State) : (s.rearmDec).decAcc = 0 := rfl
@[simp] theorem rearmDec_decCnt (s : State) : (s.rearmDec).decCnt = 0 := rfl
@[simp] theorem rearmDec_decErr (s : State) : (s.rearmDec).decErr = Err.none := rfl
@[simp] theorem rearmDec_encIn (s : State) : (s.rearmDec).encIn = s.encIn := rfl
@[simp] theorem rearmDec_encOut (s : State) : (s.rearmDec).encOut = s.encOut := rfl
@[simp] theorem rearmDec_decIn (s : State) : (s.rearmDec).decIn = s.decIn := rfl
@[simp] theorem rearmDec_decOut (s : State) : (s.rearmDec).decOut = s.decOut := rfl
@[simp] theorem rearmDec_agenda (s : State) : (s.rearmDec).agenda = s.agenda := rfl
@[simp] theorem rearmDec_tick (s : State) : (s.rearmDec).tick = s.tick := rfl

/-! ### `raise` -/

@[simp] theorem raise_encAcc (s : State) (e : Err) : (s.raise e).encAcc = s.encAcc := rfl
@[simp] theorem raise_encCnt (s : State) (e : Err) : (s.raise e).encCnt = s.encCnt := rfl
@[simp] theorem raise_decAcc (s : State) (e : Err) : (s.raise e).decAcc = 0 := rfl
@[simp] theorem raise_decCnt (s : State) (e : Err) : (s.raise e).decCnt = 0 := rfl
@[simp] theorem raise_decErr (s : State) (e : Err) : (s.raise e).decErr = e := rfl
@[simp] theorem raise_encIn (s : State) (e : Err) : (s.raise e).encIn = s.encIn := rfl
@[simp] theorem raise_encOut (s : State) (e : Err) : (s.raise e).encOut = s.encOut := rfl
@[simp] theorem raise_decIn (s : State) (e : Err) : (s.raise e).decIn = s.decIn := rfl
@[simp] theorem raise_decOut (s : State) (e : Err) : (s.raise e).decOut = s.decOut := rfl
@[simp] theorem raise_agenda (s : State) (e : Err) : (s.raise e).agenda = s.agenda := rfl
@[simp] theorem raise_tick (s : State) (e : Err) : (s.raise e).tick = s.tick := rfl

end Sys2Proof.Machine.State
end

