-- ==== Sys2Proof/Laws/Ops.lean ====
section
/-! SUPPORT. What each operation can do: one inversion lemma for each meaning ("if it answers next t, then …"), and the
meaning's answer in each case, so that no later proof unfolds a meaning. -/

namespace Sys2Proof.Machine

variable {s t : State} {b c : Byte}

/-! ### ENC.BYTE -/

theorem execEncByte_of_lt (hi : s.EncInv) (h : s.encCnt.toNat < 3) (b : Byte) :
    execEncByte b s = .next (s.setEnc (s.encAcc.toNat * 256 + b.toNat) (s.encCnt.toNat + 1)) := by
  simp only [execEncByte, if_pos hi, if_pos h]

theorem execEncByte_of_full (hi : s.EncInv) (h : s.encCnt.toNat = 3) (b : Byte) :
    execEncByte b s = .next (s.emit .enc (encFull (s.encAcc.toNat * 256 + b.toNat))).rearmEnc := by
  have h : ¬s.encCnt.toNat < 3 := by omega
  simp only [execEncByte, if_pos hi, if_neg h]

theorem execEncByte_cases (h : execEncByte b s = .next t) :
    s.EncInv ∧ ((s.encCnt.toNat < 3 ∧ t = s.setEnc (s.encAcc.toNat * 256 + b.toNat) (s.encCnt.toNat + 1)) ∨
      (s.encCnt.toNat = 3 ∧ t = (s.emit .enc (encFull (s.encAcc.toNat * 256 + b.toNat))).rearmEnc)) := by
  by_cases hi : s.EncInv
  · have := s.encCnt.isLt
    by_cases hc : s.encCnt.toNat < 3
    · rw [execEncByte_of_lt hi hc] at h; cases h; exact ⟨hi, .inl ⟨hc, rfl⟩⟩
    · have hc : s.encCnt.toNat = 3 := by omega
      rw [execEncByte_of_full hi hc] at h; cases h; exact ⟨hi, .inr ⟨hc, rfl⟩⟩
  · simp [execEncByte, hi] at h

/-! ### ENC.END -/

theorem execEncEnd_of_inv (hi : s.EncInv) :
    execEncEnd s = .next ((s.emit .enc (encTail s.encCnt.toNat s.encAcc.toNat)).emitDone .enc .ok).rearmEnc := by
  simp [execEncEnd, hi]

theorem execEncEnd_cases (h : execEncEnd s = .next t) :
    s.EncInv ∧ t = ((s.emit .enc (encTail s.encCnt.toNat s.encAcc.toNat)).emitDone .enc .ok).rearmEnc := by
  by_cases hi : s.EncInv
  · rw [execEncEnd_of_inv hi] at h; cases h; exact ⟨hi, rfl⟩
  · simp [execEncEnd, hi] at h

/-! ### DEC.DIGIT -/

theorem acceptDigit_of_lt (h : s.decCnt.toNat < 4) (d : Nat) :
    acceptDigit d s = s.setDec (s.decAcc.toNat * 85 + d) (s.decCnt.toNat + 1) := by
  simp [acceptDigit, h]

theorem acceptDigit_of_overflow (h : ¬s.decCnt.toNat < 4) {d : Nat} (ht : 2 ^ 32 ≤ s.decAcc.toNat * 85 + d) :
    acceptDigit d s = s.raise .overflow := by
  simp only [acceptDigit, h, if_false, Config.radix]
  simp only [Nat.reducePow] at ht
  simp [ht]

theorem acceptDigit_of_fits (h : ¬s.decCnt.toNat < 4) {d : Nat} (ht : s.decAcc.toNat * 85 + d < 2 ^ 32) :
    acceptDigit d s = (s.emit .dec (bytesOf (s.decAcc.toNat * 85 + d))).setDec 0 0 := by
  have : ¬(4294967296 ≤ s.decAcc.toNat * 85 + d) := by omega
  simp [acceptDigit, h, this]

theorem execDecDigit_of_failed (hi : s.DecInv) (he : s.decErr ≠ .none) {d : Nat} (hc : val c = some d) :
    execDecDigit c s = .next s := by
  unfold execDecDigit
  rw [if_pos hi, hc]
  simp [he]

theorem execDecDigit_of_ok (hi : s.DecInv) (he : s.decErr = .none) {d : Nat} (hc : val c = some d) :
    execDecDigit c s = .next (acceptDigit d s) := by
  unfold execDecDigit
  rw [if_pos hi, hc]
  simp [he]

theorem execDecDigit_cases (h : execDecDigit c s = .next t) :
    s.DecInv ∧ ∃ d, val c = some d ∧ d < 85 ∧
      ((s.decErr ≠ .none ∧ t = s) ∨
        (s.decErr = .none ∧ s.decCnt.toNat < 4 ∧ t = s.setDec (s.decAcc.toNat * 85 + d) (s.decCnt.toNat + 1)) ∨
        (s.decErr = .none ∧ s.decCnt.toNat = 4 ∧ 2 ^ 32 ≤ s.decAcc.toNat * 85 + d ∧ t = s.raise .overflow) ∨
        (s.decErr = .none ∧ s.decCnt.toNat = 4 ∧ s.decAcc.toNat * 85 + d < 2 ^ 32 ∧
          t = (s.emit .dec (bytesOf (s.decAcc.toNat * 85 + d))).setDec 0 0)) := by
  by_cases hi : s.DecInv
  · cases hc : val c with
    | none => unfold execDecDigit at h; rw [if_pos hi, hc] at h; cases h
    | some d =>
      refine ⟨hi, d, rfl, val_lt hc, ?_⟩
      by_cases he : s.decErr = .none
      · rw [execDecDigit_of_ok hi he hc] at h
        cases h
        by_cases h4 : s.decCnt.toNat < 4
        · exact .inr (.inl ⟨he, h4, acceptDigit_of_lt h4 d⟩)
        · have h4' : s.decCnt.toNat = 4 := by have := hi.1; omega
          rcases Nat.lt_or_ge (s.decAcc.toNat * 85 + d) (2 ^ 32) with ht | ht
          · exact .inr (.inr (.inr ⟨he, h4', ht, acceptDigit_of_fits h4 ht⟩))
          · exact .inr (.inr (.inl ⟨he, h4', ht, acceptDigit_of_overflow h4 ht⟩))
      · rw [execDecDigit_of_failed hi he hc] at h; cases h; exact .inl ⟨he, rfl⟩
  · unfold execDecDigit at h; rw [if_neg hi] at h; cases h

/-! ### DEC.Z -/

theorem execDecZ_of_inv (hi : s.DecInv) :
    execDecZ s = .next (if s.decErr ≠ .none then s else if s.decCnt = 0 then s.emit .dec [0, 0, 0, 0]
      else s.raise .invalidCharacter) := by
  unfold execDecZ
  rw [if_pos hi]
  split <;> [rfl; split <;> rfl]

theorem execDecZ_cases (h : execDecZ s = .next t) :
    s.DecInv ∧ ((s.decErr ≠ .none ∧ t = s) ∨
      (s.decErr = .none ∧ s.decCnt = 0 ∧ t = s.emit .dec [0, 0, 0, 0]) ∨
      (s.decErr = .none ∧ s.decCnt ≠ 0 ∧ t = s.raise .invalidCharacter)) := by
  by_cases hi : s.DecInv
  · rw [execDecZ_of_inv hi] at h
    cases h
    refine ⟨hi, ?_⟩
    by_cases he : s.decErr = .none
    · rcases eq_or_ne s.decCnt 0 with h0 | h0
      · exact .inr (.inl ⟨he, h0, by rw [if_neg (not_not.2 he), if_pos h0]⟩)
      · exact .inr (.inr ⟨he, h0, by rw [if_neg (not_not.2 he), if_neg h0]⟩)
    · exact .inl ⟨he, by rw [if_pos he]⟩
  · unfold execDecZ at h; rw [if_neg hi] at h; cases h

/-! ### DEC.BAD -/

theorem execDecBad_of_inv (hi : s.DecInv) (c : Byte) :
    execDecBad c s = .next (if s.decErr ≠ .none then s else s.raise .invalidCharacter) := by
  unfold execDecBad
  rw [if_pos hi]
  split <;> rfl

theorem execDecBad_cases (c : Byte) (h : execDecBad c s = .next t) :
    s.DecInv ∧ ((s.decErr ≠ .none ∧ t = s) ∨ (s.decErr = .none ∧ t = s.raise .invalidCharacter)) := by
  by_cases hi : s.DecInv
  · rw [execDecBad_of_inv hi] at h
    cases h
    refine ⟨hi, ?_⟩
    by_cases he : s.decErr = .none <;> simp [he]
  · unfold execDecBad at h; rw [if_neg hi] at h; cases h

/-! ### DEC.END -/

theorem execDecEnd_of_inv (hi : s.DecInv) :
    execDecEnd s = .next
      ((s.emit .dec (decVerdict s.decErr s.decCnt.toNat s.decAcc.toNat).1).emitDone .dec
        (decVerdict s.decErr s.decCnt.toNat s.decAcc.toNat).2).rearmDec := by
  simp only [execDecEnd, if_pos hi]

theorem execDecEnd_cases (h : execDecEnd s = .next t) :
    s.DecInv ∧ t = ((s.emit .dec (decVerdict s.decErr s.decCnt.toNat s.decAcc.toNat).1).emitDone .dec
        (decVerdict s.decErr s.decCnt.toNat s.decAcc.toNat).2).rearmDec := by
  by_cases hi : s.DecInv
  · rw [execDecEnd_of_inv hi] at h; cases h; exact ⟨hi, rfl⟩
  · simp only [execDecEnd, if_neg hi, reduceCtorEq] at h

theorem decVerdict_failed {e : Err} (h : e ≠ .none) (n acc : Nat) : decVerdict e n acc = ([], e.status) := by
  simp [decVerdict, h]

@[simp] theorem decVerdict_zero (acc : Nat) : decVerdict .none 0 acc = ([], .ok) := rfl

@[simp] theorem decVerdict_one (acc : Nat) : decVerdict .none 1 acc = ([], .truncatedGroup) := rfl

/-- Fewer characters than a partial group must have (R6, R118). -/
theorem decVerdict_short {n : Nat} (acc : Nat) (h0 : n ≠ 0) (h : n < Config.minPartialChars) :
    decVerdict .none n acc = ([], .truncatedGroup) := by
  have : n = 1 := by simp only [Config.minPartialChars] at h; omega
  subst this; rfl

theorem decVerdict_overflow {n acc : Nat} (hn : 2 ≤ n) (ht : 2 ^ 32 ≤ padTo n acc) :
    decVerdict .none n acc = ([], .overflow) := by
  have h0 : n ≠ 0 := by omega
  have h1 : n ≠ 1 := by omega
  have : Overflows (padTo n acc) := ht
  simp only [decVerdict, ne_eq, not_true_eq_false, if_false, if_neg h0, if_neg h1, if_pos this]

theorem decVerdict_fits {n acc : Nat} (hn : 2 ≤ n) (ht : padTo n acc < 2 ^ 32) :
    decVerdict .none n acc = ((bytesOf (padTo n acc)).take (n - 1), .ok) := by
  have h0 : n ≠ 0 := by omega
  have h1 : n ≠ 1 := by omega
  have : ¬Overflows (padTo n acc) := Nat.not_le.2 ht
  simp only [decVerdict, ne_eq, not_true_eq_false, if_false, if_neg h0, if_neg h1, if_neg this]

theorem length_decVerdict (e : Err) {n : Nat} (acc : Nat) (h : n ≤ 4) : (decVerdict e n acc).1.length ≤ 3 := by
  unfold decVerdict
  repeat' split
  all_goals simp
  omega

theorem length_encTail {n : Nat} (acc : Nat) (h : n ≤ 3) :
    (encTail n acc).length = if n = 0 then 0 else n + 1 := by
  unfold encTail
  split
  · rfl
  · exact length_encPartial _ _ (by omega)

/-! ### A unit's turn -/

theorem takeTurn_cons {u : Agent} {w : Symbol} {ws : List Symbol} (h : s.inp u = w :: ws) :
    takeTurn u s = exec (decode u w) (s.setInp u ws) := by
  simp [takeTurn, State.consume, h]

theorem takeTurn_nil {u : Agent} (h : s.inp u = []) : takeTurn u s = .next s := by
  simp [takeTurn, State.consume, h]

end Sys2Proof.Machine
end

