-- ==== Sys2Proof/Laws/PerInstr.lean ====
section
/-! SUPPORT. The family of facts that are stated operation by operation: the word that `encode` gives a well-formed operation
matches exactly one row of its port and mnemonic in the opcode table (spec/30_encoding.md R71). -/

namespace Sys2Proof.Laws.EncodeMatchesTable

/-- Exactly one row of the operation's port and mnemonic matches its word. -/
def Statement (i : Instr) : Prop :=
  i.wellFormed = true →
    (opcodeTable.countP fun r => r.port == i.agent && r.op == i.mnemonic && r.matchesWord (encode i)) = 1

theorem encByte (b : Byte) : Statement (.encByte b) := by
  revert b; unfold Statement; decide

theorem encEnd : Statement .encEnd := by
  unfold Statement; decide

theorem decWs (c : Byte) : Statement (.decWs c) := by
  revert c; unfold Statement; decide

theorem decDigit (c : Byte) : Statement (.decDigit c) := by
  revert c; unfold Statement; decide

theorem decZ : Statement .decZ := by
  unfold Statement; decide

theorem decBad (c : Byte) : Statement (.decBad c) := by
  revert c; unfold Statement; decide

theorem decEnd : Statement .decEnd := by
  unfold Statement; decide

end Sys2Proof.Laws.EncodeMatchesTable
end

