-- ==== Sys2Proof/Laws/Step.lean ====
section
/-! SUPPORT. The step by the head of the agenda, and runs of several steps. -/

namespace Sys2Proof

open Machine

variable {s t r : State}

/-! ### One step -/

theorem step_event {e : Event} {es : List Event} (h : s.agenda = e :: es) : step s = perform e (s.setAgenda es) := by
  simp only [step, stepOnce, h]

theorem step_turn {u : Agent} {es : List Event} (h : s.agenda = .turn u :: es) :
    step s = takeTurn u (s.setAgenda es) := step_event h

/-- With an empty agenda and some symbol waiting, one unit with a symbol takes its turn; at most the counter of the free
value differs when it does. -/
theorem step_free (h : s.agenda = []) (hw : s.encIn ≠ [] ∨ s.decIn ≠ []) :
    ∃ (u : Agent) (n : Nat), s.inp u ≠ [] ∧ step s = takeTurn u { s with tick := n } := by
  cases h1 : s.encIn with
  | nil =>
    cases h2 : s.decIn with
    | nil => simp [h1, h2] at hw
    | cons x xs => exact ⟨.dec, s.tick, by simp [h2], by simp only [step, stepOnce, State.arbitrate, h, h1, h2]; rw [← h1, ← h2, ← h]⟩
  | cons w ws =>
    cases h2 : s.decIn with
    | nil => exact ⟨.enc, s.tick, by simp [h1], by simp only [step, stepOnce, State.arbitrate, h, h1, h2]; rw [← h1, ← h2, ← h]⟩
    | cons x xs =>
      refine ⟨Config.turn s.tick, s.tick + 1, ?_, ?_⟩
      · cases Config.turn s.tick <;> simp [h1, h2]
      · simp only [step, stepOnce, State.arbitrate, h, h1, h2]

theorem step_idle (h : s.agenda = []) (h1 : s.encIn = []) (h2 : s.decIn = []) : step s = .next s := by
  simp only [step, stepOnce, State.arbitrate, h, h1, h2]

/-- What holds of every next state: it comes from the event at the head of the agenda, from a unit's turn that the agenda
does not name, or it is the same state. -/
theorem step_cases (h : step s = .next t) :
    (∃ e es, s.agenda = e :: es ∧ perform e (s.setAgenda es) = .next t) ∨
      (s.agenda = [] ∧ ∃ (u : Agent) (n : Nat), s.inp u ≠ [] ∧ takeTurn u { s with tick := n } = .next t) ∨
      (s.agenda = [] ∧ t = s) := by
  cases ha : s.agenda with
  | cons e es => exact .inl ⟨e, es, rfl, by rw [← step_event ha, h]⟩
  | nil =>
    by_cases hw : s.encIn ≠ [] ∨ s.decIn ≠ []
    · obtain ⟨u, n, hu, e⟩ := step_free ha hw
      exact .inr (.inl ⟨rfl, u, n, hu, ha ▸ (e ▸ h)⟩)
    · simp only [not_or, not_not] at hw
      rw [step_idle ha hw.1 hw.2] at h
      cases h; exact .inr (.inr ⟨rfl, rfl⟩)

@[simp] theorem inp_setAgenda (s : State) (es : List Event) (u : Agent) : (s.setAgenda es).inp u = s.inp u := by
  cases u <;> rfl

/-! ### Runs -/

theorem RunsTo.zero (s : State) : RunsTo 0 s s := rfl

theorem run_succ (k : Nat) (h : step s = .next t) : run (k + 1) s = run k t := by
  rw [run, h]

theorem RunsTo.succ {k : Nat} (h : step s = .next t) (h' : RunsTo k t r) : RunsTo (k + 1) s r := by
  unfold RunsTo; rw [run_succ k h]; exact h'

/-- The first step of a run, and the rest of it. -/
theorem RunsTo.uncons {k : Nat} (h : RunsTo (k + 1) s r) : ∃ t, step s = .next t ∧ RunsTo k t r := by
  unfold RunsTo at h
  cases hs : step s with
  | next t => rw [run_succ k hs] at h; exact ⟨t, rfl, h⟩
  | fault f => cases f
  | refused f => rw [run, hs] at h; cases h

/-- The model's run is the host's. -/
theorem core_run (k : Nat) (s : State) : Host.Core.run core k s = run k s := by
  induction k generalizing s with
  | zero => rfl
  | succ k ih =>
    refine (Host.Core.run.eq_2 core s k).trans ?_
    have hs : core.step s = step s := rfl
    rw [run]
    cases h : step s with
    | next t => rw [hs.trans h]; exact ih t
    | fault f => rw [hs.trans h]; rfl
    | refused f => rw [hs.trans h]; rfl

theorem RunsTo.zero_iff : RunsTo 0 s t ↔ s = t :=
  ⟨fun h => Host.Outcome.next.inj h, fun h => h ▸ RunsTo.zero s⟩

theorem RunsTo.trans {j k : Nat} (h : RunsTo j s t) (h' : RunsTo k t r) : RunsTo (j + k) s r := by
  induction j generalizing s with
  | zero => rw [RunsTo.zero_iff] at h; subst h; simpa using h'
  | succ j ih =>
    obtain ⟨s', hs, hr⟩ := h.uncons
    rw [Nat.add_right_comm]
    exact RunsTo.succ hs (ih hr)

end Sys2Proof
end

