-- ==== Sys2Proof/Laws/Runs.lean ====
section
/-! SUPPORT. What a step adds to a unit's history, histories of runs one after the other, and how the results of runs are
cut out of a history. -/

namespace Sys2Proof

open Machine

variable {s t r : State} {u v : Agent} {es : List Event}

/-! ### New output -/

theorem newOutput_of_append {os : List OutSym} (h : t.out u = s.out u ++ os) : newOutput u s t = os := by
  simp [newOutput, h]

theorem newOutput_of_length_le (h : (t.out u).length ≤ (s.out u).length) : newOutput u s t = [] := by
  simp [newOutput, h]

/-! ### Marks of one step -/

theorem stepMarks_of_next (h : step s = .next t) (hr : resetNext u s.agenda = false) :
    stepMarks u s = (newOutput u s t).map .emitted := by
  simp [stepMarks, h, hr]

theorem stepMarks_reset {drop : Bool} (h : s.agenda = .reset u drop :: es) : stepMarks u s = [.reset] := by
  have hs : step s = .next ((s.setAgenda es).resetUnit u drop) := step_event h
  simp [stepMarks, hs, h, resetNext]

theorem stepMarks_take (h : s.agenda = .take v :: es) : stepMarks u s = [] := by
  have hs : step s = .next ((s.setAgenda es).take v) := step_event h
  rw [stepMarks_of_next hs (by rw [h]; rfl), newOutput_of_length_le, List.map_nil]
  cases u <;> cases v <;> simp [State.take]

theorem stepMarks_send {w : Symbol} (h : s.agenda = .send v w :: es) : stepMarks u s = [] := by
  have hs : step s = .next ((s.setAgenda es).send v w) := step_event h
  rw [stepMarks_of_next hs (by rw [h]; rfl), newOutput_of_length_le, List.map_nil]
  cases u <;> cases v <;> simp [State.send]

theorem stepMarks_turn {os : List OutSym} (h : s.agenda = .turn v :: es) (hs : step s = .next t)
    (ho : t.out u = s.out u ++ os) : stepMarks u s = os.map .emitted := by
  rw [stepMarks_of_next hs (by rw [h]; rfl), newOutput_of_append ho]

/-! ### Histories -/

@[simp] theorem history_zero (u : Agent) (s : State) : history u 0 s = [] := rfl

theorem history_succ (h : step s = .next t) (u : Agent) (k : Nat) :
    history u (k + 1) s = stepMarks u s ++ history u k t := by
  simp only [history, h]

theorem history_add {j : Nat} (h : RunsTo j s t) (u : Agent) (k : Nat) :
    history u (j + k) s = history u j s ++ history u k t := by
  induction j generalizing s with
  | zero => rw [RunsTo.zero_iff] at h; subst h; simp
  | succ j ih =>
    obtain ⟨s', hs, hr⟩ := h.uncons
    rw [Nat.add_right_comm, history_succ hs, history_succ hs, ih hr, List.append_assoc]

/-! ### Ended runs -/

@[simp] theorem endedRuns_nil (bs : List Byte) : endedRuns bs [] = [] := rfl

@[simp] theorem endedRuns_reset (bs : List Byte) (ms : List Mark) : endedRuns bs (.reset :: ms) = endedRuns [] ms := rfl

/-- Data symbols join the run in progress. -/
theorem endedRuns_data (bs cs : List Byte) (ms : List Mark) :
    endedRuns bs ((cs.map OutSym.data).map Mark.emitted ++ ms) = endedRuns (bs ++ cs) ms := by
  induction cs generalizing bs with
  | nil => simp
  | cons c cs ih =>
    rw [List.map_cons, List.map_cons, List.cons_append, endedRuns, ih, List.append_assoc, List.singleton_append]

/-- A message's output ends the run in progress. -/
theorem endedRuns_message (bs cs : List Byte) (st : Status) (ms : List Mark) :
    endedRuns bs ((messageOutput cs st).map Mark.emitted ++ ms) = (st, bs ++ cs) :: endedRuns [] ms := by
  rw [messageOutput, List.map_append, List.append_assoc, endedRuns_data]; rfl

end Sys2Proof
end

