-- ==== Sys2Proof/Tests/Slice0.lean ====
section
/-! SUPPORT. Small tests: words written out from spec/30_encoding.md R60 and R68, single steps and messages from the
vectors of spec/95_test_vectors.md (the vector is named in each test's comment), ill-formed operations, and for every
statement with hypotheses a state that meets them. -/

namespace Sys2Proof.Tests

open Machine

/-! ### Helpers -/

/-- A state with ENC's registers as given, everything else as at reset. -/
def encState (acc : Word) (cnt : BitVec 2) : State := { State.reset with encAcc := acc, encCnt := cnt }

/-- A state with DEC's registers as given, everything else as at reset. -/
def decState (acc : Word) (cnt : BitVec 3) (err : Err) : State :=
  { State.reset with decAcc := acc, decCnt := cnt, decErr := err }

/-- The outcome is the next state `t`. -/
def isNext (o : Outcome) (t : State) : Bool :=
  match o with
  | .next s => s == t
  | .fault _ => false
  | .refused _ => false

/-- The outcome is the refusal `r`. -/
def isRefused (o : Outcome) (r : Refusal) : Bool :=
  match o with
  | .next _ => false
  | .fault _ => false
  | .refused q => q == r

/-- The words on a unit's output port after the step, or none if there is no next state. -/
def emits (o : Outcome) (u : Agent) : List Symbol :=
  match o with
  | .next s => s.portWords u
  | .fault _ => []
  | .refused _ => []

/-! ### Decoding, bit by bit from R60, R68 and R71 -/

/-- Bit 8 clear on enc.in: ENC.BYTE with the byte 0x4D (R82: `ENC.BYTE 0x4D` is the word 0x04D). -/
theorem test_decode_encByte : decode .enc 0b001001101#9 = .encByte 0x4D#8 := by decide

/-- Bit 8 set on enc.in, data bits ignored (the word 0x1A5 of ST6). -/
theorem test_decode_encEnd : decode .enc 0b110100101#9 = .encEnd := by decide

theorem test_decode_decWs : decode .dec 0b000001001#9 = .decWs 0x09#8 ∧ decode .dec 0b000100000#9 = .decWs 0x20#8 := by
  decide

/-- The two ends of the alphabet, `!` and `u`. -/
theorem test_decode_decDigit :
    decode .dec 0b000100001#9 = .decDigit 0x21#8 ∧ decode .dec 0b001110101#9 = .decDigit 0x75#8 := by decide

theorem test_decode_decZ : decode .dec 0b001111010#9 = .decZ := by decide

/-- `v`, the first code above `u`, vertical tab, and 0xFF. -/
theorem test_decode_decBad : decode .dec 0b001110110#9 = .decBad 0x76#8 ∧ decode .dec 0b000001011#9 = .decBad 0x0B#8 ∧
    decode .dec 0b011111111#9 = .decBad 0xFF#8 := by decide

/-- The word 0x1FF of ST26. -/
theorem test_decode_decEnd : decode .dec 0b111111111#9 = .decEnd := by decide

/-- A table word is read on dec.in, and on enc.in with bit 9 set (log entry 11); what is wider than a symbol is rejected. -/
theorem test_decodeTableWord : decodeTableWord 16 0x021 = some (.decDigit 0x21#8) ∧
    decodeTableWord 16 0x24D = some (.encByte 0x4D#8) ∧ decodeTableWord 16 0x300 = some .encEnd ∧
    decodeTableWord 16 0x400 = none := by decide

theorem test_decodeNumber_rejects :
    (match decodeNumber 0x400 with | .error e => e == Reject.notASymbol | .ok _ => false) = true := by decide

/-! ### Ill-formed operations are refused by `wellFormed` -/

theorem smoke_decWs : (Instr.decWs 0x0B#8).wellFormed = false ∧ (Instr.decWs 0x0A#8).wellFormed = true := by decide

theorem smoke_decDigit : (Instr.decDigit 0x76#8).wellFormed = false ∧ (Instr.decDigit 0x75#8).wellFormed = true := by
  decide

theorem smoke_decBad : (Instr.decBad 0x7A#8).wellFormed = false ∧ (Instr.decBad 0x79#8).wellFormed = true := by decide

/-! ### Single steps (section 2.3 of the vectors) -/

/-- ST1. -/
theorem test_encByte_first : isNext (exec (.encByte 0xFF#8) (encState 0 0)) (encState 0xFF 1) = true := by decide

/-- ST2: the largest group, `s8W-!`. -/
theorem test_encByte_full : isNext (exec (.encByte 0xFF#8) (encState 0xFFFFFF 3)) { encState 0 0 with
    encOut := [.data 0x73#8, .data 0x38#8, .data 0x57#8, .data 0x2D#8, .data 0x21#8] } = true := by decide

/-- ST6: three zero bytes give `!!!!`, never `z`. -/
theorem test_encEnd_zeros : emits (exec .encEnd (encState 0 3)) .enc = [0x021#9, 0x021#9, 0x021#9, 0x021#9, 0x100#9] := by
  decide

/-- ST8. -/
theorem test_encEnd_two_bytes : isNext (exec .encEnd (encState 0x4D61 2)) { encState 0 0 with
    encOut := [.data 0x39#8, .data 0x6A#8, .data 0x6E#8, .done .ok] } = true := by decide

/-- ST14. -/
theorem test_decWs : isNext (exec (.decWs 0x09#8) (decState 2113 2 .none)) (decState 2113 2 .none) = true := by decide

/-- ST10: the largest value that fits. -/
theorem test_decDigit_fits : isNext (exec (.decDigit 0x21#8) (decState 50529027 4 .none)) { decState 0 0 .none with
    decOut := [.data 0xFF#8, .data 0xFF#8, .data 0xFF#8, .data 0xFF#8] } = true := by decide

/-- ST11: the smallest value that does not. -/
theorem test_decDigit_overflow :
    isNext (exec (.decDigit 0x22#8) (decState 50529027 4 .none)) (decState 0 0 .overflow) = true := by decide

/-- ST15. -/
theorem test_decZ_boundary :
    emits (exec .decZ (decState 0 0 .none)) .dec = [0x000#9, 0x000#9, 0x000#9, 0x000#9] := by decide

/-- ST17. -/
theorem test_decZ_inside : isNext (exec .decZ (decState 15273303 4 .none)) (decState 0 0 .invalidCharacter) = true := by
  decide

/-- ST18. -/
theorem test_decBad : isNext (exec (.decBad 0x7E#8) (decState 24 1 .none)) (decState 0 0 .invalidCharacter) = true := by
  decide

/-- ST20: the first error stays. -/
theorem test_decBad_failed : isNext (exec (.decBad 0x7E#8) (decState 0 0 .overflow)) (decState 0 0 .overflow) = true := by
  decide

/-- ST26: two bytes, then the end marker with status OK. -/
theorem test_decEnd_two_bytes : emits (exec .decEnd (decState 179685 3 .none)) .dec = [0x04D#9, 0x061#9, 0x100#9] := by
  decide

/-- ST28: the padded value is 2^32 + 83. -/
theorem test_decEnd_overflow : isNext (exec .decEnd (decState 50529027 4 .none)) { decState 0 0 .none with
    decOut := [.done .overflow] } = true := by decide

/-- RS4: a reset of DEC leaves ENC alone. -/
theorem test_reset_dec : isNext
    (step { encState 0x4D 1 with decAcc := 24, decCnt := 1, agenda := [.reset .dec false] }) (encState 0x4D 1) = true := by
  decide

/-- A symbol offered to a unit is what the next step runs (the first step of P1). -/
theorem test_withFetchWord :
    isNext (step (State.reset.withFetchWord 16 0x24D)) (encState 0x4D 1) = true ∧
      isNext (step (State.reset.withFetchWord 16 0x039)) (decState 24 1 .none) = true := by decide

/-! ### Whole messages -/

/-- EV23: `z` in the middle, a partial group at the end. -/
theorem test_encodeMsg : encodeMsg [1, 2, 3, 4, 0, 0, 0, 0, 5] =
    [0x21#8, 0x3C#8, 0x4E#8, 0x3F#8, 0x2B#8, 0x7A#8, 0x22#8, 0x54#8] := by decide +kernel

/-- DV12: whitespace inside a group. -/
theorem test_decodeMsg : decodeMsg [0x39#8, 0x6A#8, 0x20#8, 0x71#8, 0x6F#8, 0x0A#8, 0x5E#8] =
    (.ok, [0x4D#8, 0x61#8, 0x6E#8, 0x20#8]) := by decide +kernel

/-- DV25: bytes emitted before the error stay emitted, and the result is the failure alone. -/
theorem test_decodeResult :
    decodeMsg [0x39#8, 0x6A#8, 0x71#8, 0x6F#8, 0x5E#8, 0x39#8] = (.truncatedGroup, [0x4D#8, 0x61#8, 0x6E#8, 0x20#8]) ∧
      decodeResult [0x39#8, 0x6A#8, 0x71#8, 0x6F#8, 0x5E#8, 0x39#8] = .failure .truncatedGroup := by decide +kernel

/-! ### Results of runs -/

/-- DEC in mid-message: `9jqo^9` (P2's first group, and a digit), a reset, then the message `z`. -/
def abortState : State := { State.reset with
  decIn := [0x39#8, 0x6A#8, 0x71#8, 0x6F#8, 0x5E#8, 0x39#8].map dataSymbol ++ messageSymbols [0x7A#8] ++ []
  agenda := turns .dec 6 (.reset .dec false :: turns .dec 2 []) }

/-- R184, R194: the four bytes that the aborted message had emitted are in the history and in no result. -/
theorem test_runResults_reset :
    history .dec 9 abortState = ([0x4D#8, 0x61#8, 0x6E#8, 0x20#8].map OutSym.data).map Mark.emitted ++
      [.reset] ++ (messageOutput [0, 0, 0, 0] .ok).map Mark.emitted ∧
    runResults .dec 9 abortState = [(.ok, [0, 0, 0, 0])] := by decide +kernel

/-- P4, with the host taking the first end marker between the two messages: `!!z!` fails, `z` does not. -/
theorem test_runResults_messages :
    runResults .dec 8 { State.reset with
      decIn := messageSymbols [0x21#8, 0x21#8, 0x7A#8, 0x21#8] ++ messageSymbols [0x7A#8]
      agenda := turns .dec 5 (.take .dec :: turns .dec 2 []) } =
      [(.invalidCharacter, []), (.ok, [0, 0, 0, 0])] := by decide +kernel

/-! ### Witnesses: concrete values that meet each statement's hypotheses, one for each clause -/

theorem witness_EncByteEffect : eos 0x0FF#9 = false ∧ (encState 0 0).EncInv ∧ (encState 0xFFFF 2).EncInv ∧
    (encState 0 3).EncInv ∧ (0 : Word).toNat * 256 + (0#8).toNat = 0 ∧ (encState 0xFFFFFF 3).EncInv := by decide

theorem witness_EncEndEffect : eos 0x1A5#9 = true ∧ (encState 0 0).EncInv ∧ (encState 0xFF 1).EncInv ∧
    (encState 0xFFFFFF 3).EncInv := by decide

theorem witness_DecWsIsNoOp : eos 0x020#9 = false ∧ charClass (dataBits 0x020#9) = .ws := by decide

theorem witness_DecDigitEffect : charClass (dataBits 0x075#9) = .digit ∧ 33 ≤ (0x21#8).toNat ∧ (0x75#8).toNat ≤ 117 ∧
    (decState 614124 3 .none).DecInv ∧ (decState 50529027 4 .none).DecInv ∧
    2 ^ 32 ≤ 50529027 * 85 + ((0x22#8).toNat - 33) ∧
    (0xFFFFFFFF#32).toNat = 50529027 * 85 + ((0x21#8).toNat - 33) ∧ (decState 0 0 .overflow).DecInv := by decide

theorem witness_DecZEffect : charClass (dataBits 0x07A#9) = .z ∧ (decState 0 0 .none).DecInv ∧ (decState 0 1 .none).DecInv ∧
    (decState 52200624 4 .none).DecInv ∧ (decState 0 0 .invalidCharacter).DecInv := by decide

theorem witness_DecBadEffect : charClass (dataBits 0x0FF#9) = .bad ∧ (decState 24 1 .none).DecInv ∧
    (decState 0 0 .overflow).DecInv := by decide

theorem witness_DecEndEffect : eos 0x1FF#9 = true ∧ (decState 0 0 .overflow).DecInv ∧ (decState 0 0 .none).DecInv ∧
    (decState 24 1 .none).DecInv ∧ (decState 7224 2 .none).DecInv ∧ 2 ^ 32 ≤ 7224 * 85 ^ (5 - 2) + (85 ^ (5 - 2) - 1) ∧
    (decState 50529027 4 .none).DecInv ∧ (decState 50529026 4 .none).DecInv ∧
    (4294967294#32).toNat = 50529026 * 85 ^ (5 - 4) + (85 ^ (5 - 4) - 1) := by decide

theorem witness_DigitWithoutValueIsRefused : (decState 0 0 .none).DecInv ∧
    ¬(33 ≤ (0x20#8).toNat ∧ (0x20#8).toNat ≤ 117) ∧ ¬(33 ≤ (0x76#8).toNat ∧ (0x76#8).toNat ≤ 117) ∧
    isRefused (exec (.decDigit 0x20#8) (decState 0 0 .none)) .valHasNoValue = true := by decide

theorem witness_UnreachableRegistersAreRefused : ¬(encState 1 0).EncInv ∧ ¬(encState 0x1000000 3).EncInv ∧
    ¬(decState 0 5 .none).DecInv ∧ ¬(decState 85 1 .none).DecInv ∧ ¬(decState 0 0 .truncatedGroup).DecInv := by decide

theorem witness_EveryOperationIsEnabled :
    (Instr.decDigit 0x21#8).wellFormed = true ∧ (decState 52200624 4 .none).Inv ∧ (encState 0xFFFFFF 3).Inv := by decide

theorem witness_EmissionCounts :
    isNext (exec (.decWs 0x20#8) (decState 24 1 .none)) (decState 24 1 .none) = true ∧
      emits (exec (.encByte 0#8) (encState 0 3)) .enc = [0x07A#9] := by decide

/-- For the frames of ENC and of DEC. -/
theorem witness_UnitsLeaveEachOtherAlone : (Instr.encByte 0xFF#8).agent = .enc ∧ (Instr.decBad 0#8).agent = .dec ∧
    isNext (exec (.encByte 0xFF#8) (encState 0 0)) (encState 0xFF 1) = true ∧
    isNext (exec (.decBad 0#8) (decState 24 1 .none)) (decState 0 0 .invalidCharacter) = true := by decide

/-- Both errors that are latched. -/
theorem witness_WhichOperationLatchesWhichError : (Instr.decDigit 0x22#8).agent = .dec ∧
    isNext (exec (.decDigit 0x22#8) (decState 50529027 4 .none)) (decState 0 0 .overflow) = true ∧
    isNext (exec .decZ (decState 24 1 .none)) (decState 0 0 .invalidCharacter) = true := by decide

/-- A failed decoder with two more characters and an end marker waiting. -/
def drainState : State := { decState 0 0 .overflow with
  decIn := messageSymbols [0x39#8, 0x7E#8], agenda := turns .dec 3 [] }

theorem witness_FailedMessageDrains : drainState.DecInv ∧ drainState.decErr ≠ .none ∧
    drainState.decIn = messageSymbols [0x39#8, 0x7E#8] ++ [] ∧ drainState.agenda = turns .dec (2 + 1) [] := by decide

theorem witness_ResetAndEndMarkersGiveResetRegisters : (encState 0x4D 1).EncInv ∧ (decState 24 1 .none).DecInv := by decide

theorem witness_ResetEventResetsOneUnit :
    { encState 0x4D 1 with agenda := [.reset .enc true] }.agenda = .reset .enc true :: [] ∧
      { decState 24 1 .none with agenda := [.reset .dec false] }.agenda = .reset .dec false :: [] := by decide

theorem witness_StepKeepsTheRegisterInvariants : (encState 0xFF 1).Inv ∧
    isNext (step (encState 0xFF 1)) (encState 0xFF 1) = true := by decide

theorem witness_RunsFromTheInvariantsAreSafe : (decState 24 1 .none).Inv := by decide

theorem witness_StepKeepsTheEncoderOutputLegal : EncOutLegal { encState 0 0 with encOut := [.data 0x75#8, .done .ok] } ∧
    isNext (step (encState 0 0)) (encState 0 0) = true := by decide

theorem witness_AnyInterleavingGivesTheSame : { encState 0xFF 1 with
      encIn := [0x041#9], decIn := [0x021#9], agenda := [.turn .dec, .turn .enc] }.Inv ∧
    [Event.turn .dec, .turn .enc] = [Agent.dec, .enc].map .turn ++ [] := by decide

theorem witness_UnitsOnlyAppendToTheirOutput :
    (∀ e ∈ { decState 0 0 .none with agenda := [.turn .dec] }.agenda, ∃ v, e = Event.turn v) ∧
      RunsTo 1 { decState 0 0 .none with agenda := [.turn .dec] } (decState 0 0 .none) :=
  ⟨fun e he => ⟨.dec, by simpa using he⟩, rfl⟩

theorem witness_WaitingSymbolsAreConsumed : { encState 0 0 with encIn := [0x041#9, 0x100#9], decIn := [0x021#9] }.Inv ∧
    { encState 0 0 with encIn := [0x041#9, 0x100#9], decIn := [0x021#9] }.agenda = [] := by decide

/-- The four clauses: a turn on the agenda; an empty agenda with a symbol for ENC only, for DEC only, for both. In the last
the free value is one of the two units. -/
theorem witness_StepRunsTheDecodedSymbol :
    { State.reset with encIn := [0x041#9], agenda := [.turn .enc] }.inp .enc = 0x041#9 :: [] ∧
      { State.reset with encIn := [0x041#9] }.agenda = [] ∧ { State.reset with decIn := [0x021#9] }.encIn = [] ∧
      (Config.turn 0 = .enc ∨ Config.turn 0 = .dec) :=
  ⟨rfl, rfl, rfl, by cases Config.turn 0 <;> simp⟩

theorem witness_WaitingUnitKeepsItsState : { State.reset with agenda := [.turn .dec] }.inp .dec = [] ∧
    State.reset.agenda = [] ∧ State.reset.encIn = [] ∧ State.reset.decIn = [] := by decide

theorem witness_HostSendsAndTakes :
    { State.reset with agenda := [.send .enc 0x041#9] }.agenda = .send .enc 0x041#9 :: [] ∧
      { State.reset with agenda := [.take .dec] }.agenda = .take .dec :: [] := by decide

theorem witness_OfferedSymbolIsRunNext : 0x24D < 2 ^ 10 ∧ 0x039 < 2 ^ 10 := by decide

theorem witness_DecodeOfEncodeIsTheOperation : (Instr.decDigit 0x75#8).wellFormed = true ∧
    (Instr.decWs 0x0D#8).wellFormed = true ∧ (Instr.decBad 0xFF#8).wellFormed = true := by decide

theorem witness_EncodeOfDecodeIsTheWord : eos 0x0FF#9 = false ∧ eos 0x1FF#9 = true := by decide

theorem witness_ChrAndValAreInverse : 84 < 85 ∧ (33 ≤ (0x21#8).toNat ∧ (0x75#8).toNat ≤ 117) ∧
    ¬(33 ≤ (0x7A#8).toNat ∧ (0x7A#8).toNat ≤ 117) := by decide

theorem witness_DigitsAreTheBase85Digits : 2 ^ 32 - 1 < 2 ^ 32 ∧ [82, 23, 54, 12, 0].length = 5 ∧
    (∀ d ∈ [82, 23, 54, 12, 0], d < 85) ∧ value [82, 23, 54, 12, 0] = 2 ^ 32 - 1 := by decide

theorem witness_PaddingOfPartialGroups : 1 ≤ [0xFF#8].length ∧ [0xFF#8].length ≤ 4 ∧ 2 ≤ [84, 84].length ∧
    [84, 84, 84, 84].length ≤ 4 := by decide

/-- A first digit of each of the three kinds; `s8W-` and `s8W*` on the two sides of the threshold. -/
theorem witness_OverflowThresholds : (∀ x ∈ [23, 54, 12], x < 85) ∧ 1 ≤ [23, 54, 12].length ∧ [23, 54, 12].length ≤ 4 ∧
    83 ≤ 84 ∧ 81 < 85 ∧ 14516046 ≤ value ([23, 54, 12] ++ List.replicate (4 - 3) 84) ∧
    ¬14516046 ≤ value ([23, 54, 9] ++ List.replicate (4 - 3) 84) := by decide

theorem witness_RegistersStandForOneList : { decState 52200624 4 .none with encAcc := 0xFFFFFF, encCnt := 3 }.Inv := by
  decide

/-- ENC at reset with the message of one byte and its end marker waiting. -/
def encRunState : State := { State.reset with encIn := messageSymbols [0x4D#8], agenda := turns .enc 2 [] }

theorem witness_EncoderRunIsEncode : EncAtReset encRunState ∧ encRunState.encIn = messageSymbols [0x4D#8] ++ [] ∧
    encRunState.agenda = turns .enc (1 + 1) [] := by decide

/-- DEC at reset with the message `9j` and its end marker waiting. -/
def decRunState : State := { State.reset with decIn := messageSymbols [0x39#8, 0x6A#8], agenda := turns .dec 3 [] }

theorem witness_DecoderRunIsDecode : DecAtReset decRunState ∧
    decRunState.decIn = messageSymbols [0x39#8, 0x6A#8] ++ [] ∧ decRunState.agenda = turns .dec (2 + 1) [] := by decide

/-- Two messages one after the other, the second empty. -/
theorem witness_MessagesAreIndependent :
    { State.reset with
        encIn := [[0x4D#8], []].flatMap messageSymbols, agenda := turns .enc 3 [] }.agenda =
      turns .enc ([[0x4D#8], []].flatMap messageSymbols).length [] ∧
    { State.reset with
        decIn := [[0x39#8, 0x6A#8], []].flatMap messageSymbols, agenda := turns .dec 4 [] }.agenda =
      turns .dec ([[0x39#8, 0x6A#8], []].flatMap messageSymbols).length [] ∧
    EncAtReset State.reset ∧ DecAtReset State.reset := by decide

/-- A data symbol, an end marker, and a reset of DEC with four digits pending. -/
theorem witness_RunEndsWithItsEndMarker :
    (∃ t, step { State.reset with agenda := [.turn .dec], decIn := [0x021#9] } = .next t) ∧
    (∃ t, step { State.reset with agenda := [.turn .enc], encIn := [0x1FF#9] } = .next t) ∧
    { decState 15273303 4 .none with agenda := [.reset .dec true] }.agenda = .reset .dec true :: [] ∧
    eos 0x021#9 = false ∧ eos 0x1FF#9 = true := ⟨⟨_, rfl⟩, ⟨_, rfl⟩, rfl, rfl, rfl⟩

/-- A group and a digit with no end marker; no symbol at all, with three bytes pending. -/
theorem witness_MessageWithoutEndHasNoResult :
    abortState.Inv ∧ abortState.inp .dec = [0x39#8, 0x6A#8, 0x71#8, 0x6F#8, 0x5E#8, 0x39#8].map dataSymbol ++
      (messageSymbols [0x7A#8] ++ []) ∧ abortState.agenda = turns .dec 6 (.reset .dec false :: turns .dec 2 []) ∧
    (encState 0xFFFFFF 3).Inv ∧ (encState 0xFFFFFF 3).inp .enc = [].map dataSymbol ++ [] ∧
    (encState 0xFFFFFF 3).agenda = turns .enc 0 [] := by decide

/-- DEC reset after a group and a digit; ENC reset with three bytes pending and nothing sent since, the next message
empty. -/
theorem witness_ResetAbortsTheRunInProgress :
    abortState.Inv ∧ abortState.inp .dec = [0x39#8, 0x6A#8, 0x71#8, 0x6F#8, 0x5E#8, 0x39#8].map dataSymbol ++
      messageSymbols [0x7A#8] ++ [] ∧
    abortState.agenda = turns .dec 6 (.reset .dec false :: turns .dec (1 + 1) []) ∧
    { encState 0xFFFFFF 3 with encIn := [0x100#9] }.Inv ∧
    { encState 0xFFFFFF 3 with encIn := [0x100#9] }.inp .enc = [].map dataSymbol ++ messageSymbols [] ++ [] ∧
    { State.reset with agenda := [.reset .enc false, .turn .enc] }.agenda =
      turns .enc 0 (.reset .enc false :: turns .enc (0 + 1) []) := by decide

/-- The host takes a symbol from an output that has one, and from an empty one. -/
theorem witness_OutputIsNeverReadBack :
    { State.reset with encOut := [.data 0x21#8], agenda := [.take .enc] }.agenda = .take .enc :: [] ∧
    { State.reset with agenda := [.take .dec, .turn .dec] }.agenda = .take .dec :: [.turn .dec] := by decide

theorem witness_RoundTripThroughBothUnits :
    EncAtReset { encRunState with
      agenda := turns .enc 2 (sends .dec (messageSymbols (encodeMsg [0x4D#8])) (turns .dec 3 [])) } ∧
    DecAtReset encRunState ∧ encRunState.encIn = messageSymbols [0x4D#8] ∧ encRunState.encOut = [] ∧
    encRunState.decIn = [] ∧ (encodeMsg [0x4D#8]).length + 1 = 3 := by decide +kernel

/-- A full group before three trailing bytes; the text `z` (at a boundary) before the four characters `9jqo`, which decode,
and before `uu`, which overflows. -/
theorem witness_PartialGroupAsymmetry : [1#8, 2#8, 3#8, 4#8].length % 4 = 0 ∧ [0xFF#8, 0xFF#8, 0xFF#8].length ≤ 3 ∧
    ([0x7A#8].foldl Pass.char Pass.start).failed = .none ∧ ([0x7A#8].foldl Pass.char Pass.start).ds = [] ∧
    (∀ c ∈ [0x39#8, 0x6A#8, 0x71#8, 0x6F#8], charClass c = .digit) ∧ (∀ c ∈ [0x75#8, 0x75#8], charClass c = .digit) := by
  decide

theorem witness_ZeroShortcut : [0#8, 0#8, 0#8, 0#8].length % 4 = 0 ∧
    ([0x20#8].foldl Pass.char Pass.start).failed = .none ∧ ([0x20#8].foldl Pass.char Pass.start).ds = [] := by decide

theorem witness_BadCharacterFails : charClass 0x7E#8 = .bad ∧ ([0x21#8].foldl Pass.char Pass.start).failed = .none ∧
    ([0x21#8, 0x7A#8].foldl Pass.char Pass.start).failed = .invalidCharacter := by decide

theorem witness_OverflowLaw : [82, 23, 54, 12, 1].length = 5 ∧ (∀ d ∈ [82, 23, 54, 12, 1], d < 85) ∧
    2 ^ 32 ≤ value [82, 23, 54, 12, 1] ∧ 2 ^ 32 ≤ value [84, 84, 84, 84, 84] := by decide

theorem witness_EmptyMessages : EncAtReset State.reset ∧ DecAtReset State.reset := by decide

theorem witness_FailedDecodeGivesNoBytes : (decodeMsg [0x7A#8]).1 = .ok ∧ (decodeMsg [0x21#8]).1 ≠ .ok := by
  decide +kernel

end Sys2Proof.Tests
end

namespace Sys2Proof

open Machine

/-! ## The registers: frames of the two units, and the invariants of R23 and R29 -/

section Registers

variable {s t : State} {i : Instr} {u : Agent}

/-! ### Refusal outside the invariants (U6) -/

theorem execEncByte_of_not_encInv (h : ¬s.EncInv) (b : Byte) :
    execEncByte b s = .refused .encRegistersUnreachable := if_neg h

theorem execEncEnd_of_not_encInv (h : ¬s.EncInv) : execEncEnd s = .refused .encRegistersUnreachable := if_neg h

theorem execDecDigit_of_not_decInv (h : ¬s.DecInv) (c : Byte) :
    execDecDigit c s = .refused .decRegistersUnreachable := if_neg h

theorem execDecZ_of_not_decInv (h : ¬s.DecInv) : execDecZ s = .refused .decRegistersUnreachable := if_neg h

theorem execDecBad_of_not_decInv (h : ¬s.DecInv) (c : Byte) :
    execDecBad c s = .refused .decRegistersUnreachable := if_neg h

theorem execDecEnd_of_not_decInv (h : ¬s.DecInv) : execDecEnd s = .refused .decRegistersUnreachable := if_neg h

/-- Settles O9: each meaning that reads a unit's registers tests that unit's invariant first. -/
theorem unreachableRegistersAreRefused : Obligations.UnreachableRegistersAreRefused :=
  ⟨fun _ h => ⟨execEncByte_of_not_encInv h, execEncEnd_of_not_encInv h⟩,
    fun _ h => ⟨execDecDigit_of_not_decInv h, execDecZ_of_not_decInv h, execDecBad_of_not_decInv h,
      execDecEnd_of_not_decInv h⟩⟩

/-! ### Reset values -/

theorem reset_inv : State.reset.Inv := by decide

/-- Settles O18: the registers at their reset values, and an empty output. -/
theorem resetMeetsTheInvariants : Obligations.ResetMeetsTheInvariants :=
  ⟨reset_inv, by simp [EncOutLegal, State.reset]⟩

/-- Settles O16: both end markers re-arm their unit as their last act. -/
theorem resetAndEndMarkersGiveResetRegisters : Obligations.ResetAndEndMarkersGiveResetRegisters :=
  ⟨⟨rfl, rfl⟩, ⟨rfl, rfl, rfl⟩, fun _ hi => ⟨_, execEncEnd_of_inv hi, rfl, rfl⟩,
    fun _ hi => ⟨_, execDecEnd_of_inv hi, rfl, rfl, rfl⟩⟩

/-! ### Frames -/

theorem exec_encFrame (hu : i.agent = .enc) (h : exec i s = .next t) : EncFrame s t := by
  cases i with
  | encByte b => obtain ⟨-, ⟨-, rfl⟩ | ⟨-, rfl⟩⟩ := execEncByte_cases h <;> simp [EncFrame]
  | encEnd => obtain ⟨-, rfl⟩ := execEncEnd_cases h; simp [EncFrame]
  | decWs | decDigit | decZ | decBad | decEnd => cases hu

theorem exec_decFrame (hu : i.agent = .dec) (h : exec i s = .next t) : DecFrame s t := by
  cases i with
  | encByte | encEnd => cases hu
  | decWs c => cases h; simp [DecFrame]
  | decDigit c =>
    obtain ⟨-, d, -, -, ⟨-, rfl⟩ | ⟨-, -, rfl⟩ | ⟨-, -, -, rfl⟩ | ⟨-, -, -, rfl⟩⟩ := execDecDigit_cases h <;>
      simp [DecFrame]
  | decZ => obtain ⟨-, ⟨-, rfl⟩ | ⟨-, -, rfl⟩ | ⟨-, -, rfl⟩⟩ := execDecZ_cases h <;> simp [DecFrame]
  | decBad c => obtain ⟨-, ⟨-, rfl⟩ | ⟨-, rfl⟩⟩ := execDecBad_cases c h <;> simp [DecFrame]
  | decEnd => obtain ⟨-, rfl⟩ := execDecEnd_cases h; simp [DecFrame]

/-- Settles O12, from the frames of the two units. -/
theorem unitsLeaveEachOtherAlone : Obligations.UnitsLeaveEachOtherAlone :=
  fun _ _ _ h => ⟨fun hu => exec_encFrame hu h, fun hu => exec_decFrame hu h⟩

/-! ### What keeps an invariant -/

theorem encInv_of_decFrame (hi : s.EncInv) (h : DecFrame s t) : t.EncInv := by
  obtain ⟨hacc, hcnt, -⟩ := h
  rwa [State.EncInv, hacc, hcnt]

theorem decInv_of_encFrame (hi : s.DecInv) (h : EncFrame s t) : t.DecInv := by
  obtain ⟨hacc, hcnt, herr, -⟩ := h
  rwa [State.DecInv, hacc, hcnt, herr]

theorem rearmEnc_encInv (s : State) : s.rearmEnc.EncInv := by simp [State.EncInv]

theorem rearmDec_decInv (s : State) : s.rearmDec.DecInv := by simp [State.DecInv]

theorem raise_decInv (s : State) {e : Err} (he : e ≠ .truncatedGroup) : (s.raise e).DecInv := by
  simp [State.DecInv, he]

theorem setEnc_encInv (s : State) {a n : Nat} (ha : a < 256 ^ n) (hn : n ≤ 3) : (s.setEnc a n).EncInv := by
  have hcnt : (BitVec.ofNat 2 n).toNat = n := by rw [BitVec.toNat_ofNat]; omega
  rw [State.EncInv, State.setEnc_encAcc, State.setEnc_encCnt, hcnt, BitVec.toNat_ofNat]
  exact (Nat.mod_le _ _).trans_lt ha

theorem setDec_decInv {a n : Nat} (he : s.decErr = .none) (ha : a < 85 ^ n) (hn : n ≤ 4) :
    (s.setDec a n).DecInv := by
  have hcnt : (BitVec.ofNat 3 n).toNat = n := by rw [BitVec.toNat_ofNat]; omega
  rw [State.DecInv, State.setDec_decAcc, State.setDec_decCnt, State.setDec_decErr, hcnt, BitVec.toNat_ofNat, he]
  exact ⟨hn, (Nat.mod_le _ _).trans_lt ha, by simp, by simp⟩

theorem exec_encInv (hu : i.agent = .enc) (h : exec i s = .next t) : t.EncInv := by
  cases i with
  | encByte b =>
    obtain ⟨hi, ⟨hc, rfl⟩ | ⟨-, rfl⟩⟩ := execEncByte_cases h
    · have hb := b.isLt
      refine setEnc_encInv s ?_ (by omega)
      rw [State.EncInv] at hi
      rw [pow_succ]; omega
    · exact rearmEnc_encInv _
  | encEnd => obtain ⟨-, rfl⟩ := execEncEnd_cases h; exact rearmEnc_encInv _
  | decWs | decDigit | decZ | decBad | decEnd => cases hu

/-- DEC.WS reads no register, so the invariant after it is the one before it; the other operations test it. -/
theorem exec_keeps_decInv (hu : i.agent = .dec) (hi : s.DecInv) (h : exec i s = .next t) : t.DecInv := by
  cases i with
  | encByte | encEnd => cases hu
  | decWs c => cases h; exact hi
  | decDigit c =>
    obtain ⟨-, d, -, hd, ⟨-, rfl⟩ | ⟨he, hc, rfl⟩ | ⟨-, -, -, rfl⟩ | ⟨he, -, -, rfl⟩⟩ := execDecDigit_cases h
    · exact hi
    · obtain ⟨-, hacc, -⟩ := hi
      refine setDec_decInv he ?_ (by omega)
      rw [Config.radix] at hacc
      rw [pow_succ]; omega
    · exact raise_decInv s (by decide)
    · exact setDec_decInv (by simpa using he) (by simp) (by simp)
  | decZ =>
    obtain ⟨-, ⟨-, rfl⟩ | ⟨-, -, rfl⟩ | ⟨-, -, rfl⟩⟩ := execDecZ_cases h
    · exact hi
    · exact hi
    · exact raise_decInv s (by decide)
  | decBad c =>
    obtain ⟨-, ⟨-, rfl⟩ | ⟨-, rfl⟩⟩ := execDecBad_cases c h
    · exact hi
    · exact raise_decInv s (by decide)
  | decEnd => obtain ⟨-, rfl⟩ := execDecEnd_cases h; exact rearmDec_decInv _

/-- Each unit keeps its own invariant; the frame keeps the other's. -/
theorem exec_keeps_inv (hi : s.Inv) (h : exec i s = .next t) : t.Inv := by
  obtain ⟨he, hd⟩ := hi
  cases hu : i.agent with
  | enc => exact ⟨exec_encInv hu h, decInv_of_encFrame hd (exec_encFrame hu h)⟩
  | dec => exact ⟨encInv_of_decFrame he (exec_decFrame hu h), exec_keeps_decInv hu hd h⟩

/-! ### The step keeps the invariants -/

/-- The invariants speak of registers only. -/
theorem setInp_inv (hi : s.Inv) (u : Agent) (ws : List Symbol) : (s.setInp u ws).Inv := by
  cases u <;> exact hi

theorem take_inv (hi : s.Inv) (u : Agent) : (s.take u).Inv := by
  cases u <;> exact hi

theorem resetUnit_inv (hi : s.Inv) (u : Agent) (drop : Bool) : (s.resetUnit u drop).Inv := by
  obtain ⟨he, hd⟩ := hi
  have hr : (s.resetUnit u false).Inv := by
    cases u with
    | enc => exact ⟨rearmEnc_encInv s, hd⟩
    | dec => exact ⟨he, rearmDec_decInv s⟩
  cases drop with
  | false => exact hr
  | true => exact setInp_inv hr u []

theorem takeTurn_cases (h : takeTurn u s = .next t) :
    (s.inp u = [] ∧ t = s) ∨ ∃ w ws, s.inp u = w :: ws ∧ exec (decode u w) (s.setInp u ws) = .next t := by
  cases hw : s.inp u with
  | nil => rw [takeTurn_nil hw] at h; cases h; exact .inl ⟨rfl, rfl⟩
  | cons w ws => rw [takeTurn_cons hw] at h; exact .inr ⟨w, ws, rfl, h⟩

theorem takeTurn_keeps_inv (hi : s.Inv) (h : takeTurn u s = .next t) : t.Inv := by
  obtain ⟨-, rfl⟩ | ⟨w, ws, -, hx⟩ := takeTurn_cases h
  · exact hi
  · exact exec_keeps_inv (setInp_inv hi u ws) hx

theorem perform_keeps_inv {e : Event} (hi : s.Inv) (h : perform e s = .next t) : t.Inv := by
  cases e with
  | turn u => exact takeTurn_keeps_inv hi h
  | reset u drop => cases h; exact resetUnit_inv hi u drop
  | send u w => cases h; exact setInp_inv hi u _
  | take u => cases h; exact take_inv hi u

theorem step_keeps_inv (hi : s.Inv) (h : step s = .next t) : t.Inv := by
  obtain ⟨e, es, -, he⟩ | ⟨-, u, n, -, hu⟩ | ⟨-, rfl⟩ := step_cases h
  · exact perform_keeps_inv (s := s.setAgenda es) hi he
  · exact takeTurn_keeps_inv (s := { s with tick := n }) hi hu
  · exact hi

/-! ### What the invariants imply -/

theorem encAcc_eq_zero (hi : s.EncInv) (h : s.encCnt = 0) : s.encAcc = 0 := by
  rw [State.EncInv, h] at hi
  exact BitVec.eq_of_toNat_eq (Nat.lt_one_iff.1 hi)

theorem encAcc_lt (hi : s.EncInv) : s.encAcc.toNat < 2 ^ 24 := by
  have hcnt : s.encCnt.toNat ≤ 3 := Nat.le_of_lt_succ s.encCnt.isLt
  calc s.encAcc.toNat < 256 ^ s.encCnt.toNat := hi
    _ ≤ 256 ^ 3 := Nat.pow_le_pow_right (by decide) hcnt
    _ = 2 ^ 24 := by norm_num

theorem decAcc_eq_zero (hi : s.DecInv) (h : s.decCnt = 0) : s.decAcc = 0 := by
  obtain ⟨-, hacc, -⟩ := hi
  rw [h] at hacc
  exact BitVec.eq_of_toNat_eq (Nat.lt_one_iff.1 hacc)

/-- Settles O19: every step keeps the invariants, and the other clauses of R23 and R29 follow from them. -/
theorem stepKeepsTheRegisterInvariants : Obligations.StepKeepsTheRegisterInvariants := by
  refine ⟨reset_inv, fun s t hi h => ?_⟩
  obtain ⟨henc, hdec⟩ := step_keeps_inv hi h
  have ⟨hcnt, hacc, hlatched, hnever⟩ := hdec
  exact ⟨henc, encAcc_eq_zero henc, encAcc_lt henc, hcnt, hacc, decAcc_eq_zero hdec, hlatched, hnever⟩

end Registers

/-! ## The registers as lists (R36) -/

theorem value_eq_ofDigits (ds : List Nat) : value ds = Nat.ofDigits 85 ds.reverse := by
  induction ds using List.reverseRecOn with
  | nil => rfl
  | append_singleton ds d ih =>
    rw [value_snoc, List.reverse_append, List.reverse_singleton, List.singleton_append, Nat.ofDigits_cons, ih]
    omega

theorem beValue_eq_ofDigits (bs : List Byte) : beValue bs = Nat.ofDigits 256 (bs.map BitVec.toNat).reverse := by
  induction bs using List.reverseRecOn with
  | nil => rfl
  | append_singleton bs b ih =>
    rw [beValue_snoc, List.map_append, List.reverse_append, List.map_singleton, List.reverse_singleton,
      List.singleton_append, Nat.ofDigits_cons, ih]
    omega

/-- Mathlib's bijection between digit strings of a fixed length and numbers, with the most significant digit first. -/
theorem existsUnique_ofDigits_reverse {b : Nat} (hb : 1 < b) {n a : Nat} (ha : a < b ^ n) :
    ∃! ds : List Nat, ds.length = n ∧ (∀ d ∈ ds, d < b) ∧ Nat.ofDigits b ds.reverse = a := by
  have bij := Nat.bijOn_ofDigits hb n
  obtain ⟨ds, ⟨hlen, hlt⟩, hval⟩ := bij.surjOn ha
  refine ⟨ds.reverse, ⟨by simpa using hlen, by simpa using hlt, by simpa using hval⟩, ?_⟩
  rintro es ⟨hlen', hlt', hval'⟩
  have heq : es.reverse = ds :=
    bij.injOn ⟨by simpa using hlen', by simpa using hlt'⟩ ⟨hlen, hlt⟩ (hval'.trans hval.symm)
  rw [← heq, List.reverse_reverse]

theorem existsUnique_value {n a : Nat} (ha : a < 85 ^ n) :
    ∃! ds : List Nat, ds.length = n ∧ (∀ d ∈ ds, d < 85) ∧ value ds = a := by
  simpa only [value_eq_ofDigits] using existsUnique_ofDigits_reverse (by decide) ha

theorem map_toNat_map_ofNat {ds : List Nat} (h : ∀ d ∈ ds, d < 256) :
    (ds.map (BitVec.ofNat 8)).map BitVec.toNat = ds := by
  rw [List.map_map]
  exact (List.map_congr_left fun d hd => Nat.mod_eq_of_lt (h d hd)).trans (List.map_id ds)

theorem existsUnique_beValue {n a : Nat} (ha : a < 256 ^ n) :
    ∃! bs : List Byte, bs.length = n ∧ beValue bs = a := by
  obtain ⟨ds, ⟨hlen, hlt, hval⟩, huniq⟩ := existsUnique_ofDigits_reverse (b := 256) (by decide) ha
  refine ⟨ds.map (BitVec.ofNat 8), ⟨by simpa using hlen, ?_⟩, ?_⟩
  · rw [beValue_eq_ofDigits, map_toNat_map_ofNat hlt, hval]
  · rintro bs ⟨hlen', hval'⟩
    have hds : bs.map BitVec.toNat = ds :=
      huniq _ ⟨by simpa using hlen', by simpa using fun b _ => b.isLt, beValue_eq_ofDigits bs ▸ hval'⟩
    rw [← hds, List.map_map]
    exact ((List.map_congr_left fun b _ => (BitVec.ofNat_toNat 8 b).trans (BitVec.setWidth_eq b)).trans
      (List.map_id bs)).symm

/-- Settles O40: the bounds of the invariants are the ones that fixed-length strings of bytes and digits have. -/
theorem registersStandForOneList : Obligations.RegistersStandForOneList := by
  rintro s ⟨henc, -, hdec, -⟩
  exact ⟨existsUnique_beValue henc, existsUnique_value hdec⟩

/-! ## The outputs are write-only (R20, R40) -/

namespace Machine.State

/-- The state with other output streams. -/
def withOutputs (s : State) (os : Agent → List OutSym) : State := { s with encOut := os .enc, decOut := os .dec }

@[simp] theorem withOutputs_out (s : State) : s.withOutputs s.out = s := rfl

@[simp] theorem withOutputs_withOutputs (s : State) (os os' : Agent → List OutSym) :
    (s.withOutputs os).withOutputs os' = s.withOutputs os' := rfl

@[simp] theorem out_withOutputs (s : State) (os : Agent → List OutSym) (u : Agent) :
    (s.withOutputs os).out u = os u := by
  cases u <;> rfl

@[simp] theorem inp_withOutputs (s : State) (os : Agent → List OutSym) (u : Agent) :
    (s.withOutputs os).inp u = s.inp u := by
  cases u <;> rfl

@[simp] theorem withOutputs_agenda (s : State) (os : Agent → List OutSym) :
    (s.withOutputs os).agenda = s.agenda := rfl

theorem setInp_withOutputs (s : State) (os : Agent → List OutSym) (u : Agent) (ws : List Symbol) :
    (s.withOutputs os).setInp u ws = (s.setInp u ws).withOutputs os := by
  cases u <;> rfl

theorem send_withOutputs (s : State) (os : Agent → List OutSym) (u : Agent) (w : Symbol) :
    (s.withOutputs os).send u w = (s.send u w).withOutputs os := by
  cases u <;> rfl

theorem resetUnit_withOutputs (s : State) (os : Agent → List OutSym) (u : Agent) (drop : Bool) :
    (s.withOutputs os).resetUnit u drop = (s.resetUnit u drop).withOutputs os := by
  cases u <;> cases drop <;> rfl

/-- Taking a symbol changes an output and nothing else. -/
theorem take_eq_withOutputs (s : State) (u : Agent) : s.take u = s.withOutputs (s.take u).out := by
  cases u <;> rfl

theorem take_withOutputs (s : State) (os : Agent → List OutSym) (u : Agent) :
    (s.withOutputs os).take u = (s.take u).withOutputs ((s.withOutputs os).take u).out := by
  cases u <;> rfl

end Machine.State

/-- Whatever stands on the outputs, `op` takes `s` to `t`, and it appends `xs` to the output of `u` and nothing to the
other one. -/
def AppendsTo (op : State → Outcome) (s t : State) (u : Agent) (xs : List OutSym) : Prop :=
  ∀ os, op (s.withOutputs os) = .next (t.withOutputs (Function.update os u (os u ++ xs)))

section Outputs

variable {s t : State} {u : Agent} {op : State → Outcome} {xs : List OutSym}

theorem update_append_apply (os : Agent → List OutSym) (u v : Agent) (xs : List OutSym) :
    Function.update os u (os u ++ xs) v = os v ++ if v = u then xs else [] := by
  rcases eq_or_ne v u with rfl | h <;> simp [*]

theorem AppendsTo.out_eq (ha : AppendsTo op s t u xs) (h : op s = .next t) (v : Agent) :
    t.out v = s.out v ++ if v = u then xs else [] := by
  have hs : op s = .next (t.withOutputs (Function.update s.out u (s.out u ++ xs))) := ha s.out
  have ht : t = t.withOutputs (Function.update s.out u (s.out u ++ xs)) := Host.Outcome.next.inj (h.symm.trans hs)
  rw [ht, State.out_withOutputs, update_append_apply]

theorem appendsTo_nil (h : ∀ os, op (s.withOutputs os) = .next (t.withOutputs os)) : AppendsTo op s t u [] := by
  simpa only [AppendsTo, List.append_nil, Function.update_eq_self] using h

/-! ### Operations

Each meaning reads registers only, so its answer in a case is its answer there with other outputs too. -/

theorem execEncByte_appendsTo {b : Byte} (h : execEncByte b s = .next t) :
    ∃ xs, AppendsTo (execEncByte b) s t .enc xs := by
  obtain ⟨hi, ⟨hc, rfl⟩ | ⟨hc, rfl⟩⟩ := execEncByte_cases h
  · exact ⟨[], appendsTo_nil fun os => execEncByte_of_lt (s := s.withOutputs os) hi hc b⟩
  · exact ⟨(encFull (s.encAcc.toNat * 256 + b.toNat)).map .data,
      fun os => execEncByte_of_full (s := s.withOutputs os) hi hc b⟩

theorem execEncEnd_appendsTo (h : execEncEnd s = .next t) : ∃ xs, AppendsTo execEncEnd s t .enc xs := by
  obtain ⟨hi, rfl⟩ := execEncEnd_cases h
  refine ⟨messageOutput (encTail s.encCnt.toNat s.encAcc.toNat) .ok, fun os => ?_⟩
  rw [messageOutput, ← List.append_assoc]
  exact execEncEnd_of_inv (s := s.withOutputs os) hi

theorem execDecDigit_appendsTo {c : Byte} (h : execDecDigit c s = .next t) :
    ∃ xs, AppendsTo (execDecDigit c) s t .dec xs := by
  obtain ⟨hi, d, hd, -, hx⟩ := execDecDigit_cases h
  have accepts : s.decErr = .none → ∀ os : Agent → List OutSym,
      execDecDigit c (s.withOutputs os) = .next (acceptDigit d (s.withOutputs os)) :=
    fun he os => execDecDigit_of_ok (s := s.withOutputs os) hi he hd
  obtain ⟨he, rfl⟩ | ⟨he, hc, rfl⟩ | ⟨he, hc, ht, rfl⟩ | ⟨he, hc, ht, rfl⟩ := hx
  · exact ⟨[], appendsTo_nil fun os => execDecDigit_of_failed hi he hd⟩
  · exact ⟨[], appendsTo_nil fun os =>
      (accepts he os).trans (congrArg _ (acceptDigit_of_lt (s := s.withOutputs os) hc d))⟩
  · exact ⟨[], appendsTo_nil fun os =>
      (accepts he os).trans (congrArg _ (acceptDigit_of_overflow (s := s.withOutputs os) hc.not_lt ht))⟩
  · exact ⟨(bytesOf (s.decAcc.toNat * 85 + d)).map .data, fun os =>
      (accepts he os).trans (congrArg _ (acceptDigit_of_fits (s := s.withOutputs os) hc.not_lt ht))⟩

theorem execDecZ_appendsTo (h : execDecZ s = .next t) : ∃ xs, AppendsTo execDecZ s t .dec xs := by
  obtain ⟨hi, hx⟩ := execDecZ_cases h
  have answer (os : Agent → List OutSym) := execDecZ_of_inv (s := s.withOutputs os) hi
  obtain ⟨he, rfl⟩ | ⟨he, hc, rfl⟩ | ⟨he, hc, rfl⟩ := hx
  · exact ⟨[], appendsTo_nil fun os => (answer os).trans (congrArg _ (if_pos he))⟩
  · exact ⟨[.data 0, .data 0, .data 0, .data 0], fun os =>
      (answer os).trans (congrArg _ ((if_neg (not_not.2 he)).trans (if_pos hc)))⟩
  · exact ⟨[], appendsTo_nil fun os => (answer os).trans (congrArg _ ((if_neg (not_not.2 he)).trans (if_neg hc)))⟩

theorem execDecBad_appendsTo {c : Byte} (h : execDecBad c s = .next t) :
    ∃ xs, AppendsTo (execDecBad c) s t .dec xs := by
  obtain ⟨hi, hx⟩ := execDecBad_cases c h
  have answer (os : Agent → List OutSym) := execDecBad_of_inv (s := s.withOutputs os) hi c
  obtain ⟨he, rfl⟩ | ⟨he, rfl⟩ := hx
  · exact ⟨[], appendsTo_nil fun os => (answer os).trans (congrArg _ (if_pos he))⟩
  · exact ⟨[], appendsTo_nil fun os => (answer os).trans (congrArg _ (if_neg (not_not.2 he)))⟩

theorem execDecEnd_appendsTo (h : execDecEnd s = .next t) : ∃ xs, AppendsTo execDecEnd s t .dec xs := by
  obtain ⟨hi, rfl⟩ := execDecEnd_cases h
  generalize hv : decVerdict s.decErr s.decCnt.toNat s.decAcc.toNat = v
  refine ⟨messageOutput v.1 v.2, fun os => ?_⟩
  rw [messageOutput, ← List.append_assoc, ← hv]
  exact execDecEnd_of_inv (s := s.withOutputs os) hi

theorem exec_appendsTo {i : Instr} (h : exec i s = .next t) : ∃ xs, AppendsTo (exec i) s t i.agent xs := by
  cases i with
  | encByte b => exact execEncByte_appendsTo h
  | encEnd => exact execEncEnd_appendsTo h
  | decWs c => cases h; exact ⟨[], appendsTo_nil fun os => rfl⟩
  | decDigit c => exact execDecDigit_appendsTo h
  | decZ => exact execDecZ_appendsTo h
  | decBad c => exact execDecBad_appendsTo (c := c) h
  | decEnd => exact execDecEnd_appendsTo h

/-! ### The step -/

theorem takeTurn_appendsTo (h : takeTurn u s = .next t) : ∃ v xs, AppendsTo (takeTurn u) s t v xs := by
  obtain ⟨hw, rfl⟩ | ⟨w, ws, hw, hx⟩ := takeTurn_cases h
  · exact ⟨u, [], appendsTo_nil fun os => takeTurn_nil (by simpa using hw)⟩
  · obtain ⟨xs, hxs⟩ := exec_appendsTo hx
    refine ⟨(decode u w).agent, xs, fun os => ?_⟩
    rw [takeTurn_cons (ws := ws) (by simpa using hw), State.setInp_withOutputs]
    exact hxs os

theorem arbitrate_withOutputs (s : State) (os : Agent → List OutSym) :
    (s.withOutputs os).arbitrate = s.arbitrate.map fun p => (p.1, p.2.withOutputs os) := by
  unfold State.arbitrate State.withOutputs
  cases h1 : s.encIn <;> cases h2 : s.decIn <;> simp [h1, h2]

theorem step_of_agenda_nil (h : s.agenda = []) :
    step s = s.arbitrate.elim (.next s) fun p => takeTurn p.1 p.2 := by
  simp only [step, stepOnce, h]
  cases s.arbitrate <;> rfl

/-- With an empty agenda the arbiter does not look at the outputs either. -/
theorem step_appendsTo_of_agenda_nil (h : s.agenda = []) (hs : step s = .next t) :
    ∃ v xs, AppendsTo step s t v xs := by
  have step_with (os : Agent → List OutSym) := step_of_agenda_nil (s := s.withOutputs os) h
  simp only [arbitrate_withOutputs] at step_with
  rw [step_of_agenda_nil h] at hs
  cases ha : s.arbitrate with
  | none =>
    rw [ha] at hs step_with
    cases hs
    exact ⟨.enc, [], appendsTo_nil step_with⟩
  | some p =>
    rw [ha] at hs step_with
    obtain ⟨v, xs, hxs⟩ := takeTurn_appendsTo hs
    exact ⟨v, xs, fun os => (step_with os).trans (hxs os)⟩

/-- Every step but the host's taking of a symbol appends to one output, and reads neither. -/
theorem step_appendsTo (hs : step s = .next t) (hk : ∀ v es, s.agenda ≠ .take v :: es) :
    ∃ v xs, AppendsTo step s t v xs := by
  cases h : s.agenda with
  | nil => exact step_appendsTo_of_agenda_nil h hs
  | cons e es =>
    rw [step_event h] at hs
    have step_with (os : Agent → List OutSym) :
        step (s.withOutputs os) = perform e ((s.setAgenda es).withOutputs os) :=
      step_event (s := s.withOutputs os) h
    cases e with
    | turn u =>
      obtain ⟨v, xs, hxs⟩ := takeTurn_appendsTo hs
      exact ⟨v, xs, fun os => (step_with os).trans (hxs os)⟩
    | reset v drop =>
      cases hs
      exact ⟨v, [], appendsTo_nil fun os =>
        (step_with os).trans (congrArg _ (State.resetUnit_withOutputs _ os v drop))⟩
    | send v w =>
      cases hs
      exact ⟨v, [], appendsTo_nil fun os =>
        (step_with os).trans (congrArg _ (State.send_withOutputs _ os v w))⟩
    | take v => exact absurd h (hk v es)

theorem stepMarks_of_resetNext (hs : step s = .next t) (hr : resetNext u s.agenda = true) :
    stepMarks u s = [.reset] := by
  simp [stepMarks, hs, hr]

theorem stepMarks_withOutputs_of_appendsTo {v : Agent} (ha : AppendsTo step s t v xs) (hs : step s = .next t)
    (os : Agent → List OutSym) (u : Agent) : stepMarks u (s.withOutputs os) = stepMarks u s := by
  cases hr : resetNext u s.agenda with
  | true => rw [stepMarks_of_resetNext hs hr, stepMarks_of_resetNext (ha os) hr]
  | false =>
    have new_with : newOutput u (s.withOutputs os) (t.withOutputs (Function.update os v (os v ++ xs))) =
        if u = v then xs else [] :=
      newOutput_of_append (by rw [State.out_withOutputs, State.out_withOutputs, update_append_apply])
    rw [stepMarks_of_next hs hr, stepMarks_of_next (ha os) hr, new_with, newOutput_of_append (ha.out_eq hs u)]

/-- The step with other outputs: the same next state but for the outputs, and the same marks. -/
theorem step_withOutputs (hs : step s = .next t) (os : Agent → List OutSym) :
    ∃ os', step (s.withOutputs os) = .next (t.withOutputs os') ∧
      ∀ u, stepMarks u (s.withOutputs os) = stepMarks u s := by
  by_cases hk : ∃ v es, s.agenda = .take v :: es
  · obtain ⟨v, es, h⟩ := hk
    rw [step_event h] at hs
    cases hs
    refine ⟨_, (step_event (s := s.withOutputs os) h).trans
      (congrArg _ (State.take_withOutputs (s.setAgenda es) os v)), fun u => ?_⟩
    rw [stepMarks_take h, stepMarks_take (s := s.withOutputs os) h]
  · obtain ⟨v, xs, ha⟩ := step_appendsTo hs (by simpa using hk)
    exact ⟨_, ha os, stepMarks_withOutputs_of_appendsTo ha hs os⟩

/-! ### Histories -/

theorem history_succ_of_stuck (h : ∀ t, step s ≠ .next t) (u : Agent) (k : Nat) : history u (k + 1) s = [] := by
  cases hs : step s with
  | next t => exact absurd hs (h t)
  | fault r => simp [history, stepMarks, hs]
  | refused r => simp [history, stepMarks, hs]

theorem step_withOutputs_stuck (h : ∀ t, step s ≠ .next t) (os : Agent → List OutSym) (t : State) :
    step (s.withOutputs os) ≠ .next t := by
  intro hs
  obtain ⟨os', hs', -⟩ := step_withOutputs hs s.out
  exact h _ hs'

theorem history_withOutputs (u : Agent) (k : Nat) (s : State) (os : Agent → List OutSym) :
    history u k (s.withOutputs os) = history u k s := by
  induction k generalizing s os with
  | zero => rfl
  | succ k ih =>
    by_cases hs : ∃ t, step s = .next t
    · obtain ⟨t, hs⟩ := hs
      obtain ⟨os', hs', hm⟩ := step_withOutputs hs os
      rw [history_succ hs', history_succ hs, hm, ih]
    · rw [not_exists] at hs
      rw [history_succ_of_stuck hs, history_succ_of_stuck (step_withOutputs_stuck hs os)]

theorem history_take {v : Agent} {es : List Event} (h : s.agenda = .take v :: es) (u : Agent) (k : Nat) :
    history u (k + 1) s = history u k (s.setAgenda es) := by
  have hs : step s = .next ((s.setAgenda es).take v) := step_event h
  rw [history_succ hs, stepMarks_take h, List.nil_append, State.take_eq_withOutputs, history_withOutputs]

/-- Settles O47: the step commutes with exchanging the output streams, and taking a symbol is such an exchange. -/
theorem outputIsNeverReadBack : Obligations.OutputIsNeverReadBack :=
  fun u k s => ⟨fun os os' => history_withOutputs u k s (State.out { s with encOut := os, decOut := os' }),
    fun _ _ h => history_take h u k⟩

end Outputs

end Sys2Proof

namespace Sys2Proof

open Machine

/-! ## The units share nothing (R52): a unit's turn reads and writes that unit alone -/

namespace Machine.State

/-- The state `r` with the registers and the streams of unit `u` taken from `s`. -/
def withUnit (r : State) (u : Agent) (s : State) : State :=
  match u with
  | .enc => { r with encAcc := s.encAcc, encCnt := s.encCnt, encIn := s.encIn, encOut := s.encOut }
  | .dec => { r with
      decAcc := s.decAcc, decCnt := s.decCnt, decErr := s.decErr, decIn := s.decIn, decOut := s.decOut }

@[simp] theorem withUnit_self (s : State) (u : Agent) : s.withUnit u s = s := by
  cases u <;> rfl

@[simp] theorem inp_withUnit (r s : State) (u : Agent) : (r.withUnit u s).inp u = s.inp u := by
  cases u <;> rfl

@[simp] theorem withUnit_agenda (r s : State) (u : Agent) : (r.withUnit u s).agenda = r.agenda := by
  cases u <;> rfl

theorem setInp_withUnit (r s : State) (u : Agent) (ws : List Symbol) :
    (r.withUnit u s).setInp u ws = r.withUnit u (s.setInp u ws) := by
  cases u <;> rfl

theorem setAgenda_withUnit (r s : State) (u : Agent) (es : List Event) :
    (r.setAgenda es).withUnit u s = (r.withUnit u s).setAgenda es := by
  cases u <;> rfl

/-- Writing one unit leaves the other one what it was. -/
theorem withUnit_withUnit_of_ne {u v : Agent} (h : v ≠ u) (r s : State) :
    (r.withUnit u s).withUnit v r = r.withUnit u s := by
  cases u <;> cases v
  · exact absurd rfl h
  · rfl
  · rfl
  · exact absurd rfl h

theorem withUnit_comm {u v : Agent} (h : v ≠ u) (r s s' : State) :
    (r.withUnit u s).withUnit v s' = (r.withUnit v s').withUnit u s := by
  cases u <;> cases v
  · exact absurd rfl h
  · rfl
  · rfl
  · exact absurd rfl h

end Machine.State

section Turns

variable {s t r : State} {u v : Agent} {i : Instr} {w x : Symbol} {ws xs : List Symbol}

/-! ### Decoding a port's word (R69, R70) -/

theorem decode_enc_of_eos (h : eos w = true) : decode .enc w = .encEnd := if_pos h

theorem decode_enc_of_data (h : eos w = false) : decode .enc w = .encByte (dataBits w) := if_neg (by simp [h])

theorem decode_dec_of_eos (h : eos w = true) : decode .dec w = .decEnd := if_pos h

theorem decode_dec_of_data (h : eos w = false) : decode .dec w = decChar (dataBits w) := if_neg (by simp [h])

theorem decChar_agent_wellFormed (c : Byte) : (decChar c).agent = .dec ∧ (decChar c).wellFormed = true := by
  obtain ⟨hc, h⟩ | ⟨hc, h⟩ | ⟨-, h⟩ | ⟨hc, h⟩ := decChar_cases c <;> simp [Instr.agent, Instr.wellFormed, *]

/-- A word selects a well-formed operation of the port it stands on. -/
theorem decode_agent_wellFormed (u : Agent) (w : Symbol) :
    (decode u w).agent = u ∧ (decode u w).wellFormed = true := by
  cases u with
  | enc =>
    cases h : eos w with
    | false => rw [decode_enc_of_data h]; exact ⟨rfl, rfl⟩
    | true => rw [decode_enc_of_eos h]; exact ⟨rfl, rfl⟩
  | dec =>
    cases h : eos w with
    | false => rw [decode_dec_of_data h]; exact decChar_agent_wellFormed _
    | true => rw [decode_dec_of_eos h]; exact ⟨rfl, rfl⟩

/-! ### An operation, and a turn, of one unit -/

/-- An operation's answer for its unit is the same in every state that agrees on that unit. -/
theorem exec_withUnit (h : exec i s = .next t) (r : State) :
    exec i (r.withUnit i.agent s) = .next (r.withUnit i.agent t) := by
  cases i with
  | encByte b =>
    obtain ⟨hi, ⟨hc, rfl⟩ | ⟨hc, rfl⟩⟩ := execEncByte_cases h
    · exact execEncByte_of_lt (s := r.withUnit .enc s) hi hc b
    · exact execEncByte_of_full (s := r.withUnit .enc s) hi hc b
  | encEnd =>
    obtain ⟨hi, rfl⟩ := execEncEnd_cases h
    exact execEncEnd_of_inv (s := r.withUnit .enc s) hi
  | decWs c => cases h; rfl
  | decDigit c =>
    obtain ⟨hi, d, hd, -, hx⟩ := execDecDigit_cases h
    have accepts (he : s.decErr = .none) := execDecDigit_of_ok (s := r.withUnit .dec s) hi he hd
    obtain ⟨he, rfl⟩ | ⟨he, hc, rfl⟩ | ⟨he, hc, ht, rfl⟩ | ⟨he, hc, ht, rfl⟩ := hx
    · exact execDecDigit_of_failed hi he hd
    · exact (accepts he).trans (congrArg _ (acceptDigit_of_lt (s := r.withUnit .dec s) hc d))
    · exact (accepts he).trans (congrArg _ (acceptDigit_of_overflow (s := r.withUnit .dec s) hc.not_lt ht))
    · exact (accepts he).trans (congrArg _ (acceptDigit_of_fits (s := r.withUnit .dec s) hc.not_lt ht))
  | decZ =>
    obtain ⟨hi, hx⟩ := execDecZ_cases h
    refine (execDecZ_of_inv (s := r.withUnit .dec s) hi).trans (congrArg _ ?_)
    obtain ⟨he, rfl⟩ | ⟨he, hc, rfl⟩ | ⟨he, hc, rfl⟩ := hx
    · exact if_pos he
    · exact (if_neg (not_not.2 he)).trans (if_pos hc)
    · exact (if_neg (not_not.2 he)).trans (if_neg hc)
  | decBad c =>
    obtain ⟨hi, hx⟩ := execDecBad_cases c h
    refine (execDecBad_of_inv (s := r.withUnit .dec s) hi c).trans (congrArg _ ?_)
    obtain ⟨he, rfl⟩ | ⟨he, rfl⟩ := hx
    · exact if_pos he
    · exact if_neg (not_not.2 he)
  | decEnd =>
    obtain ⟨hi, rfl⟩ := execDecEnd_cases h
    exact execDecEnd_of_inv (s := r.withUnit .dec s) hi

theorem takeTurn_withUnit (h : takeTurn u s = .next t) (r : State) :
    takeTurn u (r.withUnit u s) = .next (r.withUnit u t) := by
  obtain ⟨hw, rfl⟩ | ⟨w, ws, hw, hx⟩ := takeTurn_cases h
  · exact takeTurn_nil (by rwa [State.inp_withUnit])
  · rw [takeTurn_cons (ws := ws) (by rwa [State.inp_withUnit]), State.setInp_withUnit]
    simpa only [(decode_agent_wellFormed u w).1] using exec_withUnit hx r

/-- The frame of a turn: a turn changes its own unit only. -/
theorem takeTurn_frame (h : takeTurn u s = .next t) : t = s.withUnit u t := by
  have hs := takeTurn_withUnit h s
  rw [State.withUnit_self] at hs
  exact Host.Outcome.next.inj (h.symm.trans hs)

theorem takeTurn_agenda (h : takeTurn u s = .next t) : t.agenda = s.agenda := by
  rw [takeTurn_frame h, State.withUnit_agenda]

/-- A turn after another unit's turn does what it does without it. -/
theorem takeTurn_after_other (huv : v ≠ u) (hu : takeTurn u s = .next t) (hv : takeTurn v s = .next r) :
    takeTurn v t = .next (t.withUnit v r) := by
  have ht : t.withUnit v s = t := by
    rw [takeTurn_frame hu, State.withUnit_withUnit_of_ne huv]
  simpa only [ht] using takeTurn_withUnit hv t

/-- The turns of the two units commute. -/
theorem takeTurn_comm (huv : v ≠ u) (hu : takeTurn u s = .next t) (hv : takeTurn v s = .next r) :
    ∃ q, takeTurn v t = .next q ∧ takeTurn u r = .next q := by
  refine ⟨t.withUnit v r, takeTurn_after_other huv hu hv, ?_⟩
  have same : r.withUnit u t = t.withUnit v r := by
    calc r.withUnit u t = (s.withUnit v r).withUnit u t := by rw [← takeTurn_frame hv]
      _ = (s.withUnit u t).withUnit v r := (State.withUnit_comm huv s t r).symm
      _ = t.withUnit v r := by rw [← takeTurn_frame hu]
  rw [takeTurn_after_other huv.symm hv hu, same]

/-! ### Every turn has an answer (R98, R120) -/

theorem exec_completes (hw : i.wellFormed = true) (hi : s.Inv) : ∃ t, exec i s = .next t := by
  obtain ⟨he, hd⟩ := hi
  cases i with
  | encByte b =>
    rcases Nat.lt_or_ge s.encCnt.toNat 3 with hc | hc
    · exact ⟨_, execEncByte_of_lt he hc b⟩
    · have hc : s.encCnt.toNat = 3 := by have := s.encCnt.isLt; omega
      exact ⟨_, execEncByte_of_full he hc b⟩
  | encEnd => exact ⟨_, execEncEnd_of_inv he⟩
  | decWs c => exact ⟨s, rfl⟩
  | decDigit c =>
    have hv := val_of_digit (eq_of_beq hw)
    by_cases h : s.decErr = .none
    · exact ⟨_, execDecDigit_of_ok hd h hv⟩
    · exact ⟨_, execDecDigit_of_failed hd h hv⟩
  | decZ => exact ⟨_, execDecZ_of_inv hd⟩
  | decBad c => exact ⟨_, execDecBad_of_inv hd c⟩
  | decEnd => exact ⟨_, execDecEnd_of_inv hd⟩

theorem takeTurn_completes (hi : s.Inv) (u : Agent) : ∃ t, takeTurn u s = .next t := by
  cases hw : s.inp u with
  | nil => exact ⟨s, takeTurn_nil hw⟩
  | cons w ws =>
    rw [takeTurn_cons hw]
    exact exec_completes (decode_agent_wellFormed u w).2 (setInp_inv hi u ws)

/-! ### Interleavings -/

/-- The head of the agenda is a turn: the unit takes it, and the rest of the agenda, which no turn reads, stands. -/
theorem step_setAgenda_turn (h : takeTurn u s = .next t) (es : List Event) :
    step (s.setAgenda (.turn u :: es)) = .next (t.setAgenda es) := by
  have local_turn := takeTurn_withUnit h (s.setAgenda es)
  rw [State.setAgenda_withUnit, State.setAgenda_withUnit, State.withUnit_self, ← takeTurn_frame h] at local_turn
  exact (step_turn (s := s.setAgenda (.turn u :: es)) rfl).trans local_turn

/-- Turns of the agenda may be taken in any order. -/
theorem run_turns_of_perm {us vs : List Agent} (h : us.Perm vs) (es : List Event) (hi : s.Inv) :
    run us.length (s.setAgenda (us.map .turn ++ es)) = run vs.length (s.setAgenda (vs.map .turn ++ es)) := by
  induction h generalizing s with
  | nil => rfl
  | cons u _ ih =>
    obtain ⟨t, ht⟩ := takeTurn_completes hi u
    have first_step (us : List Agent) :
        run (u :: us).length (s.setAgenda ((u :: us).map .turn ++ es)) =
          run us.length (t.setAgenda (us.map .turn ++ es)) :=
      run_succ us.length (step_setAgenda_turn ht _)
    rw [first_step, first_step, ih (takeTurn_keeps_inv hi ht)]
  | swap u v us =>
    rcases eq_or_ne v u with rfl | huv
    · rfl
    · obtain ⟨t, ht⟩ := takeTurn_completes hi u
      obtain ⟨r, hr⟩ := takeTurn_completes hi v
      obtain ⟨q, hvq, huq⟩ := takeTurn_comm huv ht hr
      have two_steps {u v : Agent} {p : State} (hp : takeTurn u s = .next p) (hq : takeTurn v p = .next q) :
          run (u :: v :: us).length (s.setAgenda ((u :: v :: us).map .turn ++ es)) =
            run us.length (q.setAgenda (us.map .turn ++ es)) :=
        (run_succ (us.length + 1) (step_setAgenda_turn hp _)).trans (run_succ us.length (step_setAgenda_turn hq _))
      rw [two_steps hr huq, two_steps ht hvq]
  | trans _ _ ih₁ ih₂ => rw [ih₁ hi, ih₂ hi]

theorem perm_enc_then_dec (us : List Agent) :
    us.Perm (List.replicate (us.count .enc) .enc ++ List.replicate (us.count .dec) .dec) := by
  refine List.perm_iff_count.2 fun u => ?_
  cases u <;> simp [List.count_replicate]

/-- Settles O22: the turns of the two units commute, and all of ENC's turns followed by all of DEC's are a permutation
of the turns on the agenda. -/
theorem anyInterleavingGivesTheSame : Obligations.AnyInterleavingGivesTheSame := by
  intro us es s hi hag
  have hp := perm_enc_then_dec us
  have hs : s.setAgenda (us.map .turn ++ es) = s := by rw [← hag]; rfl
  have hrun := run_turns_of_perm hp es hi
  rw [hs, ← hp.length_eq, List.map_append, List.map_replicate, List.map_replicate, List.append_assoc] at hrun
  exact hrun

/-! ## What the units emit (R40, R47, R51) -/

/-- Settles O11, operation by operation, from what each one can do. -/
theorem emissionCounts : Obligations.EmissionCounts := by
  intro i s t h
  cases i with
  | encByte b =>
    obtain ⟨-, ⟨-, rfl⟩ | ⟨-, rfl⟩⟩ := execEncByte_cases h
    · exact ⟨[], [], by simp [Instr.agent], by simp⟩
    · refine ⟨encFull (s.encAcc.toNat * 256 + b.toNat), [], by simp [Instr.agent], ?_, rfl⟩
      rw [length_encFull]
      split <;> simp
  | encEnd =>
    obtain ⟨-, rfl⟩ := execEncEnd_cases h
    refine ⟨encTail s.encCnt.toNat s.encAcc.toNat, [.done .ok], by simp [Instr.agent], ?_, rfl⟩
    have hn : s.encCnt.toNat ≤ 3 := Nat.le_of_lt_succ s.encCnt.isLt
    rw [length_encTail _ hn]
    split
    · simp
    · simp; omega
  | decWs c => cases h; exact ⟨[], [], by simp, rfl, rfl⟩
  | decDigit c =>
    obtain ⟨-, d, -, -, ⟨-, rfl⟩ | ⟨-, -, rfl⟩ | ⟨-, -, -, rfl⟩ | ⟨-, -, -, rfl⟩⟩ := execDecDigit_cases h
    · exact ⟨[], [], by simp, by simp⟩
    · exact ⟨[], [], by simp [Instr.agent], by simp⟩
    · exact ⟨[], [], by simp [Instr.agent], by simp⟩
    · exact ⟨bytesOf (s.decAcc.toNat * 85 + d), [], by simp [Instr.agent], by simp⟩
  | decZ =>
    obtain ⟨-, ⟨-, rfl⟩ | ⟨-, -, rfl⟩ | ⟨-, -, rfl⟩⟩ := execDecZ_cases h
    · exact ⟨[], [], by simp, by simp⟩
    · exact ⟨[0, 0, 0, 0], [], by simp [Instr.agent], by simp⟩
    · exact ⟨[], [], by simp [Instr.agent], by simp⟩
  | decBad c =>
    obtain ⟨-, ⟨-, rfl⟩ | ⟨-, rfl⟩⟩ := execDecBad_cases c h
    · exact ⟨[], [], by simp, rfl, rfl⟩
    · exact ⟨[], [], by simp [Instr.agent], rfl, rfl⟩
  | decEnd =>
    obtain ⟨⟨hn, -⟩, rfl⟩ := execDecEnd_cases h
    have hlen := length_decVerdict s.decErr s.decAcc.toNat hn
    generalize decVerdict s.decErr s.decCnt.toNat s.decAcc.toNat = verdict at hlen ⊢
    refine ⟨verdict.1, [.done verdict.2], by simp [Instr.agent], ?_, _, rfl⟩
    have small : ∀ n ≤ 3, n ∈ [0, 1, 2, 3] := by decide
    exact small _ hlen

/-- A step that is not the host's taking of a symbol only appends to the outputs. -/
theorem step_extends_out (hk : ∀ v es, s.agenda ≠ .take v :: es) (hs : step s = .next t) (u : Agent) :
    s.out u <+: t.out u := by
  obtain ⟨v, xs, ha⟩ := step_appendsTo hs hk
  exact ⟨_, (ha.out_eq hs u).symm⟩

/-- A step takes the head off an agenda of turns; an empty one stays empty. -/
theorem step_agenda_of_turns (ha : ∀ e ∈ s.agenda, ∃ v, e = .turn v) (hs : step s = .next t) :
    t.agenda = s.agenda.tail := by
  obtain ⟨e, es, hes, he⟩ | ⟨hnil, u, n, -, hu⟩ | ⟨hnil, rfl⟩ := step_cases hs
  · obtain ⟨v, rfl⟩ := ha e (by simp [hes])
    rw [takeTurn_agenda (s := s.setAgenda es) he, hes]; rfl
  · rw [takeTurn_agenda hu, hnil]; rfl
  · rw [hnil]; rfl

/-- Settles O23: by induction on the run, each step of which appends to the outputs. -/
theorem unitsOnlyAppendToTheirOutput : Obligations.UnitsOnlyAppendToTheirOutput := by
  intro k
  induction k with
  | zero =>
    intro s t u _ h
    rw [RunsTo.zero_iff.1 h]
  | succ k ih =>
    intro s t u ha h
    obtain ⟨r, hs, hr⟩ := h.uncons
    have no_take (v : Agent) (es : List Event) : s.agenda ≠ .take v :: es := by
      intro htake
      obtain ⟨_, hv⟩ := ha (.take v) (by simp [htake])
      cases hv
    have turns_left : ∀ e ∈ r.agenda, ∃ v, e = .turn v := by
      rw [step_agenda_of_turns ha hs]
      exact fun e he => ha e (List.mem_of_mem_tail he)
    exact (step_extends_out no_take hs u).trans (ih r t u turns_left hr)

/-! ## The step (R40, R69, R70) -/

theorem arbitrate_enc (h₁ : s.encIn = w :: ws) (h₂ : s.decIn = []) : s.arbitrate = some (.enc, s) := by
  simp only [State.arbitrate, h₁, h₂]

theorem arbitrate_dec (h₁ : s.encIn = []) (h₂ : s.decIn = w :: ws) : s.arbitrate = some (.dec, s) := by
  simp only [State.arbitrate, h₁, h₂]

theorem arbitrate_both (h₁ : s.encIn = w :: ws) (h₂ : s.decIn = x :: xs) (hu : Config.turn s.tick = u) :
    s.arbitrate = some (u, { s with tick := s.tick + 1 }) := by
  simp only [State.arbitrate, h₁, h₂, hu]

/-- With an empty agenda the step is the turn of the unit that the arbiter names. -/
theorem step_of_arbitrate (ha : s.agenda = []) (harb : s.arbitrate = some (u, r)) (hw : r.inp u = w :: ws) :
    step s = exec (decode u w) (r.setInp u ws) := by
  rw [step_of_agenda_nil ha, harb]
  exact takeTurn_cons hw

/-- Settles O25: the unit whose turn it is, by the agenda or by the arbiter, consumes the head of its input. -/
theorem stepRunsTheDecodedSymbol : Obligations.StepRunsTheDecodedSymbol := by
  intro s w x ws xs es
  refine ⟨fun u ha hw => ?_, fun ha h₁ h₂ => step_of_arbitrate ha (arbitrate_enc h₁ h₂) h₁,
    fun ha h₁ h₂ => step_of_arbitrate ha (arbitrate_dec h₁ h₂) h₂, fun ha h₁ h₂ => ?_⟩
  · rw [step_turn ha]
    exact takeTurn_cons (by rwa [inp_setAgenda])
  · exact ⟨fun hu => step_of_arbitrate ha (arbitrate_both h₁ h₂ hu) h₁,
      fun hu => step_of_arbitrate ha (arbitrate_both h₁ h₂ hu) h₂⟩

/-- Settles O27: each clause is the event's own act on the state with the rest of the agenda. -/
theorem hostSendsAndTakes : Obligations.HostSendsAndTakes :=
  fun _ _ _ => ⟨step_event, step_event, step_event, step_event⟩

end Turns

end Sys2Proof

namespace Sys2Proof

open Machine

/-! ## The encoding (30_encoding.md): port words, the opcode table, character tables and digits -/

section Encoding

variable {s : State} {w : Symbol} {c : Byte}

/-! ### Decoding an encoded operation (R60, R69, R70, R82) -/

theorem decChar_of_ws (h : charClass c = .ws) : decChar c = .decWs c := by simp only [decChar, h]

theorem decChar_of_digit (h : charClass c = .digit) : decChar c = .decDigit c := by simp only [decChar, h]

theorem decChar_of_bad (h : charClass c = .bad) : decChar c = .decBad c := by simp only [decChar, h]

theorem decChar_chZ : decChar Config.chZ = .decZ := rfl

theorem decode_encode {i : Instr} (h : i.wellFormed = true) : decode i.agent (encode i) = i := by
  cases i with
  | encByte b => exact decode_enc_dataSymbol b
  | encEnd => exact decode_enc_endSymbol
  | decWs c => exact (decode_dec_dataSymbol c).trans (decChar_of_ws (beq_iff_eq.1 h))
  | decDigit c => exact (decode_dec_dataSymbol c).trans (decChar_of_digit (beq_iff_eq.1 h))
  | decZ => exact (decode_dec_dataSymbol Config.chZ).trans decChar_chZ
  | decBad c => exact (decode_dec_dataSymbol c).trans (decChar_of_bad (beq_iff_eq.1 h))
  | decEnd => exact decode_dec_endSymbol

/-- Settles O29: a data operand comes back out of bits 7:0, and its class selects the operation it came from. -/
theorem decodeOfEncodeIsTheOperation : Obligations.DecodeOfEncodeIsTheOperation :=
  fun _ => decode_encode

/-! ### Encoding a decoded word (R60, R79) -/

theorem charClass_z_iff (c : Byte) : charClass c = .z ↔ c.toNat = 122 := by
  revert c; decide

theorem dataSymbol_dataBits (h : eos w = false) : dataSymbol (dataBits w) = w := by
  revert w; decide

/-- The operation of a character carries it as its operand, or is DEC.Z, which stands for one character only. -/
theorem encode_decChar (c : Byte) : encode (decChar c) = dataSymbol c := by
  obtain ⟨-, h⟩ | ⟨-, h⟩ | ⟨hz, h⟩ | ⟨-, h⟩ := decChar_cases c
  · rw [h]; rfl
  · rw [h]; rfl
  · have hc : c = Config.chZ := BitVec.eq_of_toNat_eq ((charClass_z_iff c).1 hz)
    rw [h, hc]; rfl
  · rw [h]; rfl

theorem encode_decode_of_data (u : Agent) (h : eos w = false) : encode (decode u w) = w := by
  cases u with
  | enc => rw [decode_enc_of_data h]; exact dataSymbol_dataBits h
  | dec => rw [decode_dec_of_data h, encode_decChar, dataSymbol_dataBits h]

theorem decode_of_eos (u : Agent) (h : eos w = true) : decode u w = decode u endSymbol := by
  cases u with
  | enc => exact decode_enc_of_eos h
  | dec => exact decode_dec_of_eos h

theorem encode_decode_endSymbol (u : Agent) : encode (decode u endSymbol) = endSymbol := by
  cases u <;> rfl

/-- Settles O30: a data word is its data bits; an end marker's data bits are ignored. -/
theorem encodeOfDecodeIsTheWord : Obligations.EncodeOfDecodeIsTheWord := by
  intro u w
  obtain ⟨hagent, hwf⟩ := decode_agent_wellFormed u w
  refine ⟨hwf, hagent, encode_decode_of_data u, fun h => ⟨?_, decode_of_eos u h⟩⟩
  rw [decode_of_eos u h]
  exact encode_decode_endSymbol u

/-! ### The base-85 digits of a 32-bit value (R63, R91) -/

theorem headD_digits_le {v : Nat} (h : v < 2 ^ 32) : (digits v).headD 0 ≤ 82 := by
  have : v / 85 ^ 4 ≤ 82 := by omega
  exact (Nat.mod_le _ _).trans this

theorem eq_digits {v : Nat} {ds : List Nat} (hlen : ds.length = 5) (hlt : ∀ d ∈ ds, d < 85) (hv : value ds = v) :
    ds = digits v := by
  have hv5 : v < 85 ^ 5 := by rw [← hv, ← hlen]; exact value_lt hlt
  exact (existsUnique_value hv5).unique ⟨hlen, hlt, hv⟩ ⟨length_digits v, fun _ => digits_lt, value_digits hv5⟩

/-- Settles O36: `2 ^ 32` is below `85 ^ 5`, so `digits` is the inverse of `value` there. -/
theorem digitsAreTheBase85Digits : Obligations.DigitsAreTheBase85Digits :=
  fun _ hv => ⟨value_digits (hv.trans (by decide)), fun _ => digits_lt, headD_digits_le hv, fun _ => eq_digits⟩

/-! ### The character tables (R66, R67, R68; U5) -/

theorem charClass_ws_iff (c : Byte) : charClass c = .ws ↔ c.toNat ∈ [9, 10, 13, 32] := by
  revert c; decide

/-- What the other three classes leave over. -/
theorem charClass_bad_iff (c : Byte) :
    charClass c = .bad ↔ c.toNat ≤ 8 ∨ c.toNat = 11 ∨ c.toNat = 12 ∨ (14 ≤ c.toNat ∧ c.toNat ≤ 31) ∨
      (118 ≤ c.toNat ∧ c.toNat ≤ 121) ∨ 123 ≤ c.toNat := by
  revert c; decide

/-- The codes below the alphabet, those of the alphabet, and those above it. -/
theorem range_256_eq_append : List.range 256 = List.range' 0 33 ++ List.range' 33 85 ++ List.range' 118 138 := by
  rw [List.range_eq_range', List.range'_append_1, List.range'_append_1]

/-- Settles O33: the classes code by code, and their sizes by counting below, in and above the alphabet. -/
theorem classesOfCharacters : Obligations.ClassesOfCharacters := by
  refine ⟨fun c => ⟨charClass_ws_iff c, charClass_digit_iff c, charClass_z_iff c, charClass_bad_iff c⟩, ?_⟩
  simp only [range_256_eq_append, List.countP_append]
  decide

theorem val_chr {d : Nat} (h : d < 85) : val (chr d) = some d := by
  rw [val_of_digit (charClass_chr h), chr_toNat h, Nat.add_sub_cancel_left]

theorem chr_toNat_sub (h : 33 ≤ c.toNat ∧ c.toNat ≤ 117) : chr (c.toNat - 33) = c := by
  apply BitVec.eq_of_toNat_eq
  rw [chr_toNat (by omega)]
  omega

/-- Settles O34: both tables are a shift by 33, on the codes of class DIGIT. -/
theorem chrAndValAreInverse : Obligations.ChrAndValAreInverse := by
  refine ⟨fun d hd => ⟨chr_toNat hd, val_chr hd⟩,
    fun c => ⟨fun hc => ⟨val_of_digit ((charClass_digit_iff c).2 hc), chr_toNat_sub hc⟩, fun hc => ?_⟩⟩
  have hclass : charClass c ≠ .digit := fun h => hc ((charClass_digit_iff c).1 h)
  exact ⟨val_of_not_digit hclass, hclass⟩

theorem execDecDigit_of_val_none (hi : s.DecInv) (hc : val c = none) : execDecDigit c s = .refused .valHasNoValue := by
  unfold execDecDigit
  rw [if_pos hi, hc]

/-- Settles O8: outside 33..117 a character is not of class DIGIT, and VAL has no value. -/
theorem digitWithoutValueIsRefused : Obligations.DigitWithoutValueIsRefused := by
  intro c s hi hc
  obtain ⟨hval, -⟩ := (chrAndValAreInverse.2 c).2 hc
  exact execDecDigit_of_val_none hi hval

/-! ### The opcode table (R71) -/

theorem and_endSymbol (h : eos w = true) : w &&& endSymbol = endSymbol := by
  revert w; decide

/-- A row either tests bit 8 alone, for the end marker, or asks for a data symbol. -/
theorem opcodeTable_bit_eight : ∀ r ∈ opcodeTable,
    (r.mask = endSymbol ∧ r.pattern = endSymbol) ∨ (eos r.mask = true ∧ eos r.pattern = false) := by
  decide

theorem matchesWord_of_eos {r : Row} (hr : r ∈ opcodeTable) (h : eos w = true) :
    r.matchesWord w = (r.pattern == endSymbol) := by
  obtain ⟨hmask, hpat⟩ | ⟨hmask, hpat⟩ := opcodeTable_bit_eight r hr
  · rw [Row.matchesWord, hmask, hpat, and_endSymbol h]
  · have hword : eos (w &&& r.mask) = true := by
      rw [eos, BitVec.getLsbD_and]; exact Bool.and_eq_true_iff.2 ⟨h, hmask⟩
    have hne : w &&& r.mask ≠ r.pattern := fun e => by rw [e, hpat] at hword; cases hword
    have hne' : r.pattern ≠ endSymbol := fun e => by rw [e] at hpat; cases hpat
    rw [Row.matchesWord, beq_eq_false_iff_ne.2 hne, beq_eq_false_iff_ne.2 hne']

theorem matching_rows_of_eos (u : Agent) (h : eos w = true) :
    (opcodeTable.filter fun r => r.port == u && r.matchesWord w).map Row.op = [(decode u w).mnemonic] := by
  have hrows : ∀ r ∈ opcodeTable, (r.port == u && r.matchesWord w) = (r.port == u && r.pattern == endSymbol) :=
    fun r hr => by rw [matchesWord_of_eos hr h]
  rw [List.filter_congr hrows, decode_of_eos u h]
  cases u <;> rfl

theorem matching_rows_of_dataSymbol (u : Agent) (b : Byte) :
    (opcodeTable.filter fun r => r.port == u && r.matchesWord (dataSymbol b)).map Row.op =
      [(decode u (dataSymbol b)).mnemonic] := by
  cases u with
  | enc => revert b; decide
  | dec => revert b; decide

/-- Settles O31: end markers match by bit 8, data symbols byte by byte. -/
theorem oneTableRowMatchesEachWord : Obligations.OneTableRowMatchesEachWord := by
  refine ⟨rfl, fun u w => ?_⟩
  cases h : eos w with
  | false => rw [← dataSymbol_dataBits h]; exact matching_rows_of_dataSymbol u _
  | true => exact matching_rows_of_eos u h

/-- Settles O32: each word's fields are read off its bits. -/
theorem someWordsDecodeAsWritten : Obligations.SomeWordsDecodeAsWritten :=
  ⟨rfl, rfl, rfl, rfl, rfl, rfl, rfl⟩

/-! ### Output symbols (R61) -/

theorem toSymbol_data (b : Byte) : (OutSym.data b).toSymbol = dataSymbol b := rfl

/-- Settles O35: a data symbol is the byte under a clear bit; the four end markers are four words. -/
theorem outputSymbolWords : Obligations.OutputSymbolWords := by
  refine ⟨fun b => ?_, fun st => ?_⟩
  · rw [toSymbol_data, ← BitVec.setWidth_eq_extractLsb' (by decide)]
    exact ⟨eos_dataSymbol b, dataBits_dataSymbol b⟩
  · cases st <;> decide

/-! ### Numbers that stand for a port's symbol (log entries 11, 12) -/

theorem portSymbol_of_lt {n : Nat} (h : n < 2 ^ 10) : portSymbol (n % 2 ^ 16) = .ok (portOf n, BitVec.ofNat 9 n) := by
  rw [Nat.mod_eq_of_lt (by omega)]
  exact if_pos h

/-- The offered symbol is consumed with its unit's turn, and the offer leaves nothing else behind. -/
theorem step_offer (s : State) (u : Agent) (x : Symbol) : step (s.offer u x) = exec (decode u x) s := by
  have hinp : ((s.offer u x).setAgenda s.agenda).inp u = x :: s.inp u := by cases u <;> rfl
  have hrest : ((s.offer u x).setAgenda s.agenda).setInp u (s.inp u) = s := by cases u <;> rfl
  rw [step_turn (s := s.offer u x) rfl, takeTurn_cons hinp, hrest]

/-- Settles O28: a number of 10 bits is a symbol of the port in bit 9, which `step_offer` runs. -/
theorem offeredSymbolIsRunNext : Obligations.OfferedSymbolIsRunNext := by
  intro s n hn
  have hsym := portSymbol_of_lt hn
  refine ⟨decode (portOf n) (BitVec.ofNat 9 n), ?_, (decode_agent_wellFormed _ _).2, ?_⟩
  · simp only [decodeTableWord, decodeNumber, hsym]
  · simp only [State.withFetchWord, offerNumber, hsym, step_offer]

end Encoding

end Sys2Proof

namespace Sys2Proof

open Machine

/-! ## The encoder (40_encoder.md): progress, what stands on its output, and the effects of its two operations -/

section Encoder

variable {s t : State} {c : Byte} {n v : Nat}

/-! ### Progress (R98, R120) -/

theorem perform_completes (hi : s.Inv) (e : Event) : ∃ t, perform e s = .next t := by
  cases e with
  | turn u => exact takeTurn_completes hi u
  | reset u drop => exact ⟨_, rfl⟩
  | send u w => exact ⟨_, rfl⟩
  | take u => exact ⟨_, rfl⟩

theorem step_completes (hi : s.Inv) : ∃ t, step s = .next t := by
  cases ha : s.agenda with
  | cons e es => rw [step_event ha]; exact perform_completes (s := s.setAgenda es) hi e
  | nil =>
    by_cases hw : s.encIn ≠ [] ∨ s.decIn ≠ []
    · obtain ⟨u, n, -, hstep⟩ := step_free ha hw
      rw [hstep]; exact takeTurn_completes (s := { s with tick := n }) hi u
    · simp only [not_or, not_not] at hw
      exact ⟨s, step_idle ha hw.1 hw.2⟩

/-- Settles O20: by induction on the number of steps, each of which completes and keeps the invariants. -/
theorem runsFromTheInvariantsAreSafe : Obligations.RunsFromTheInvariantsAreSafe := by
  intro s hi k
  induction k generalizing s with
  | zero => exact ⟨s, RunsTo.zero s, hi⟩
  | succ k ih =>
    obtain ⟨t, hs⟩ := step_completes hi
    obtain ⟨r, hr, hinv⟩ := ih t (step_keeps_inv hi hs)
    exact ⟨r, RunsTo.succ hs hr, hinv⟩

/-- Settles O10: a well-formed operation completes, and what completes keeps the invariants. -/
theorem everyOperationIsEnabled : Obligations.EveryOperationIsEnabled := by
  intro i s hw hi
  obtain ⟨t, h⟩ := exec_completes hw hi
  exact ⟨t, h, exec_keeps_inv hi h⟩

/-! ### What ENC emits is legal (R96, R100) -/

theorem encTail_zero (acc : Nat) : encTail 0 acc = [] := rfl

theorem encTail_of_ne_zero (hn : n ≠ 0) (acc : Nat) :
    encTail n acc = (chars (acc * 256 ^ (4 - n))).take (n + 1) := if_neg hn

theorem encSymbolLegal_of_mem_chars (h : c ∈ chars v) : encSymbolLegal (.data c) = true := by
  simp [encSymbolLegal, mem_chars h]

theorem encSymbolLegal_of_mem_encFull (h : c ∈ encFull v) : encSymbolLegal (.data c) = true := by
  unfold encFull at h
  split at h
  · rw [List.mem_singleton.1 h]; rfl
  · exact encSymbolLegal_of_mem_chars h

theorem encSymbolLegal_of_mem_encTail {acc : Nat} (h : c ∈ encTail n acc) : encSymbolLegal (.data c) = true := by
  rcases eq_or_ne n 0 with rfl | hn
  · cases h
  · rw [encTail_of_ne_zero hn] at h
    exact encSymbolLegal_of_mem_chars (List.mem_of_mem_take h)

theorem emit_enc_keeps_legal {bs : List Byte} (hs : EncOutLegal s) (hb : ∀ c ∈ bs, encSymbolLegal (.data c) = true) :
    EncOutLegal (s.emit .enc bs) :=
  List.forall_mem_append.2 ⟨hs, List.forall_mem_map.2 hb⟩

theorem emitDone_enc_ok_keeps_legal (hs : EncOutLegal s) : EncOutLegal (s.emitDone .enc .ok) :=
  List.forall_mem_append.2 ⟨hs, List.forall_mem_singleton.2 rfl⟩

/-- ENC emits legal symbols only; the operations of DEC have `enc.out` in their frame. -/
theorem exec_keeps_encOutLegal {i : Instr} (hs : EncOutLegal s) (h : exec i s = .next t) : EncOutLegal t := by
  cases hu : i.agent with
  | dec =>
    obtain ⟨-, -, -, -, hout, -⟩ := exec_decFrame hu h
    rwa [EncOutLegal, hout]
  | enc =>
    cases i with
    | encByte b =>
      obtain ⟨-, ⟨-, rfl⟩ | ⟨-, rfl⟩⟩ := execEncByte_cases h
      · exact hs
      · exact emit_enc_keeps_legal hs fun _ => encSymbolLegal_of_mem_encFull
    | encEnd =>
      obtain ⟨-, rfl⟩ := execEncEnd_cases h
      exact emitDone_enc_ok_keeps_legal (emit_enc_keeps_legal hs fun _ => encSymbolLegal_of_mem_encTail)
    | decWs | decDigit | decZ | decBad | decEnd => cases hu

theorem setInp_keeps_encOutLegal (hs : EncOutLegal s) (u : Agent) (ws : List Symbol) : EncOutLegal (s.setInp u ws) := by
  cases u <;> exact hs

theorem takeTurn_keeps_encOutLegal {u : Agent} (hs : EncOutLegal s) (h : takeTurn u s = .next t) : EncOutLegal t := by
  obtain ⟨-, rfl⟩ | ⟨w, ws, -, hx⟩ := takeTurn_cases h
  · exact hs
  · exact exec_keeps_encOutLegal (setInp_keeps_encOutLegal hs u ws) hx

theorem resetUnit_keeps_encOutLegal (hs : EncOutLegal s) (u : Agent) (drop : Bool) :
    EncOutLegal (s.resetUnit u drop) := by
  have hr : EncOutLegal (s.resetUnit u false) := by cases u <;> exact hs
  cases drop with
  | false => exact hr
  | true => exact setInp_keeps_encOutLegal hr u []

theorem take_keeps_encOutLegal (hs : EncOutLegal s) (u : Agent) : EncOutLegal (s.take u) := by
  cases u with
  | enc => exact fun o ho => hs o (List.mem_of_mem_tail ho)
  | dec => exact hs

theorem perform_keeps_encOutLegal {e : Event} (hs : EncOutLegal s) (h : perform e s = .next t) : EncOutLegal t := by
  cases e with
  | turn u => exact takeTurn_keeps_encOutLegal hs h
  | reset u drop => cases h; exact resetUnit_keeps_encOutLegal hs u drop
  | send u w => cases h; exact setInp_keeps_encOutLegal hs u _
  | take u => cases h; exact take_keeps_encOutLegal hs u

/-- Settles O21, by the event or the turn that the step is made of. -/
theorem stepKeepsTheEncoderOutputLegal : Obligations.StepKeepsTheEncoderOutputLegal := by
  intro s t hs h
  obtain ⟨e, es, -, he⟩ | ⟨-, u, n, -, hu⟩ | ⟨-, rfl⟩ := step_cases h
  · exact perform_keeps_encOutLegal (s := s.setAgenda es) hs he
  · exact takeTurn_keeps_encOutLegal (s := { s with tick := n }) hs hu
  · exact hs

/-! ### The effects of ENC.BYTE and ENC.END (R95, R96) -/

theorem encFull_zero : encFull 0 = [0x7A#8] := rfl

theorem encFull_of_ne_zero (hv : v ≠ 0) : encFull v = chars v := if_neg hv

theorem encAcc_mul_add_lt (hi : s.EncInv) (b : Byte) : s.encAcc.toNat * 256 + b.toNat < 2 ^ 32 := by
  have hacc := encAcc_lt hi
  have hb := b.isLt
  omega

/-- The group value of `n` bytes fits in 32 bits: `256 ^ n * 256 ^ (4 - n) = 2 ^ 32`. -/
theorem encAcc_mul_pow_lt (hi : s.EncInv) : s.encAcc.toNat * 256 ^ (4 - s.encCnt.toNat) < 2 ^ 32 := by
  have hcnt : s.encCnt.toNat ≤ 4 := s.encCnt.isLt.le
  calc s.encAcc.toNat * 256 ^ (4 - s.encCnt.toNat)
      < 256 ^ s.encCnt.toNat * 256 ^ (4 - s.encCnt.toNat) := Nat.mul_lt_mul_of_pos_right hi (by positivity)
    _ = 2 ^ 32 := by rw [← pow_add, Nat.add_sub_cancel' hcnt]; norm_num

/-- Settles O1: a group in progress grows by a byte, and the fourth byte emits it. -/
theorem encByteEffect : Obligations.EncByteEffect := by
  refine ⟨fun w => decode_enc_of_data, fun b s hi => ?_⟩
  have ha := encAcc_mul_add_lt hi b
  rcases Nat.lt_or_ge s.encCnt.toNat 3 with hc | hc
  · have h := execEncByte_of_lt hi hc b
    refine ⟨_, h, exec_encFrame (i := .encByte b) rfl h, ha, fun _ => ⟨?_, ?_, rfl⟩, by omega⟩
    · rw [State.setEnc_encAcc, BitVec.toNat_ofNat, Nat.mod_eq_of_lt ha]
    · rw [State.setEnc_encCnt, BitVec.toNat_ofNat, Nat.mod_eq_of_lt (by omega)]
  · have hcnt := s.encCnt.isLt
    have h := execEncByte_of_full hi (by omega) b
    refine ⟨_, h, exec_encFrame (i := .encByte b) rfl h, ha, by omega, fun _ => ⟨rfl, rfl, fun h0 => ?_, fun h0 => ?_⟩⟩
    · rw [State.rearmEnc_encOut, State.emit_enc_encOut, h0, encFull_zero]; rfl
    · rw [State.rearmEnc_encOut, State.emit_enc_encOut, encFull_of_ne_zero h0]

/-- Settles O2: the characters of the final group, if there is one, stand before the end marker. -/
theorem encEndEffect : Obligations.EncEndEffect := by
  refine ⟨fun w => decode_enc_of_eos, fun s hi => ?_⟩
  have h := execEncEnd_of_inv hi
  refine ⟨_, h, exec_encFrame (i := .encEnd) rfl h, rfl, rfl, fun h0 => ?_, fun h0 => ⟨encAcc_mul_pow_lt hi, ?_⟩⟩
  · simp [h0, encTail_zero]
  · have hn : s.encCnt.toNat ≠ 0 := fun hn => h0 (BitVec.eq_of_toNat_eq hn)
    rw [State.rearmEnc_encOut, State.emitDone_enc_encOut, State.emit_enc_encOut, encTail_of_ne_zero hn]

end Encoder

end Sys2Proof

namespace Sys2Proof

open Machine

/-! ## The decoder (41_decoder.md): its radix converter, the effects of its five operations, and draining -/

section Decoder

variable {s : State} {w : Symbol} {c : Byte} {d n : Nat}

/-! ### `bytes` and `pack` (R90, R112) -/

theorem ofNat_div_two_pow (x : BitVec 32) (k : Nat) : BitVec.ofNat 8 (x.toNat / 2 ^ k) = x.extractLsb' k 8 := by
  rw [BitVec.extractLsb', Nat.shiftRight_eq_div_pow]

theorem bytesOf_toNat (x : BitVec 32) :
    bytesOf x.toNat = [x.extractLsb' 24 8, x.extractLsb' 16 8, x.extractLsb' 8 8, x.extractLsb' 0 8] := by
  rw [← ofNat_div_two_pow, ← ofNat_div_two_pow, ← ofNat_div_two_pow, ← ofNat_div_two_pow, pow_zero, Nat.div_one]
  rfl

theorem beValue_four (b₀ b₁ b₂ b₃ : Byte) :
    beValue [b₀, b₁, b₂, b₃] = ((b₀.toNat * 256 + b₁.toNat) * 256 + b₂.toNat) * 256 + b₃.toNat := by
  simp [beValue]

theorem map_toNat_bytesOf {v : Nat} (hv : v < 2 ^ 32) :
    (bytesOf v).map BitVec.toNat = [v / 2 ^ 24, v / 2 ^ 16 % 256, v / 2 ^ 8 % 256, v % 256] := by
  have hfirst : v / 2 ^ 24 % 256 = v / 2 ^ 24 := Nat.mod_eq_of_lt (by omega)
  simp only [bytesOf, List.map_cons, List.map_nil, BitVec.toNat_ofNat, Nat.reducePow] at hfirst ⊢
  rw [hfirst]

theorem pack_lt {bs : List Byte} (h : bs.length ≤ 4) : pack bs < 2 ^ 32 := by
  calc pack bs < 256 ^ bs.length * 256 ^ (4 - bs.length) := Nat.mul_lt_mul_of_pos_right (beValue_lt bs) (by positivity)
    _ = 2 ^ 32 := by rw [← pow_add, Nat.add_sub_cancel' h]; norm_num

theorem bytesOf_pack (b₀ b₁ b₂ b₃ : Byte) : bytesOf (pack [b₀, b₁, b₂, b₃]) = [b₀, b₁, b₂, b₃] := by
  have h₀ := b₀.isLt
  have h₁ := b₁.isLt
  have h₂ := b₂.isLt
  have h₃ := b₃.isLt
  apply List.map_injective_iff.2 (BitVec.toNat_injective (n := 8))
  rw [map_toNat_bytesOf (pack_lt (bs := [b₀, b₁, b₂, b₃]) (Nat.le_refl 4)), pack_four, beValue_four]
  simp only [List.map_cons, List.map_nil, List.cons.injEq, and_true]
  omega

theorem pack_bytesOf {v : Nat} (hv : v < 2 ^ 32) : pack (bytesOf v) = v := by
  rw [bytesOf, pack_four, beValue_four]
  simp only [BitVec.toNat_ofNat]
  omega

/-- Settles O37: the bytes are the base-256 digits of a value below `2 ^ 32`, which `pack` puts together again. -/
theorem bytesInvertPack : Obligations.BytesInvertPack :=
  ⟨bytesOf_pack, fun x => ⟨pack_bytesOf x.isLt, bytesOf_toNat x, map_toNat_bytesOf x.isLt⟩⟩

/-! ### Padding (R90, R111) -/

theorem beValue_append_padBytes (bs : List Byte) (k : Nat) :
    beValue (bs ++ List.replicate k Config.padByte) = beValue bs * 256 ^ k := by
  induction k with
  | zero => simp
  | succ k ih =>
    rw [List.replicate_succ', ← List.append_assoc, beValue_snoc, ih, pow_succ, ← mul_assoc]
    exact Nat.add_zero _

theorem pack_append_padBytes {bs : List Byte} (h : bs.length ≤ 4) :
    pack (bs ++ List.replicate (4 - bs.length) Config.padByte) = pack bs := by
  have hlen : (bs ++ List.replicate (4 - bs.length) Config.padByte).length = 4 := by simp; omega
  rw [pack, hlen, beValue_append_padBytes]
  exact Nat.mul_one _

/-- Padding with the greatest digit: `k` digits 84 have value `85 ^ k - 1`. -/
theorem value_append_padDigits (ds : List Nat) (k : Nat) :
    value (ds ++ List.replicate k Config.padDigit) = value ds * 85 ^ k + (85 ^ k - 1) := by
  induction k with
  | zero => simp
  | succ k ih =>
    have hpos : 0 < 85 ^ k := by positivity
    rw [List.replicate_succ', ← List.append_assoc, value_snoc, ih, pow_succ, ← mul_assoc]
    simp only [Config.padDigit]
    omega

theorem padded_eq_value_append (ds : List Nat) :
    padded ds = value (ds ++ List.replicate (5 - ds.length) Config.padDigit) :=
  (value_append_padDigits ds _).symm

theorem mem_append_padDigits_lt {ds : List Nat} (h : ∀ d ∈ ds, d < 85) (k : Nat) :
    ∀ d ∈ ds ++ List.replicate k Config.padDigit, d < 85 :=
  List.forall_mem_append.2 ⟨h, fun _ hd => by rw [List.eq_of_mem_replicate hd]; decide⟩

theorem padded_lt {ds : List Nat} (hlen : ds.length ≤ 5) (h : ∀ d ∈ ds, d < 85) : padded ds < 85 ^ 5 := by
  have hval := value_lt (mem_append_padDigits_lt h (5 - ds.length))
  rwa [← padded_eq_value_append, List.length_append, List.length_replicate, Nat.add_sub_cancel' hlen] at hval

/-- Settles O38: both kinds of group are padded to their full length, whose values have the stated bounds. -/
theorem paddingOfPartialGroups : Obligations.PaddingOfPartialGroups :=
  ⟨fun _ _ h4 => ⟨(pack_append_padBytes h4).symm, pack_lt h4⟩,
    fun ds _ h4 => ⟨padded_eq_value_append ds, rfl, fun h => Nat.le_pred_of_lt (padded_lt (by omega) h)⟩⟩

/-! ### Overflow by the first digit (R113) -/

theorem value_cons (d : Nat) (ds : List Nat) : value (d :: ds) = d * 85 ^ ds.length + value ds := by
  rw [value_eq_ofDigits, List.reverse_cons, Nat.ofDigits_append, Nat.ofDigits_singleton, List.length_reverse,
    ← value_eq_ofDigits, Nat.add_comm, Nat.mul_comm]

theorem padded_cons {ds : List Nat} (hlen : ds.length ≤ 4) :
    padded (d :: ds) = d * 85 ^ 4 + value (ds ++ List.replicate (4 - ds.length) Config.padDigit) := by
  have hrest : (ds ++ List.replicate (4 - ds.length) Config.padDigit).length = 4 := by simp; omega
  rw [padded_eq_value_append, List.length_cons, Nat.succ_sub_succ, List.cons_append, value_cons, hrest]

/-- Settles O39: `82 * 85 ^ 4 + 14516046 = 2 ^ 32`, and the four other places stay below `85 ^ 4`. -/
theorem overflowThresholds : Obligations.OverflowThresholds := by
  intro d ds _ hds _ hlen
  have hrest : value (ds ++ List.replicate (4 - ds.length) Config.padDigit) < 85 ^ 4 := by
    have h := value_lt (mem_append_padDigits_lt hds (4 - ds.length))
    rwa [List.length_append, List.length_replicate, Nat.add_sub_cancel' hlen] at h
  rw [padded_cons hlen]
  simp only [Overflows, Config.limit, Config.padDigit] at hrest ⊢
  omega

/-! ### DEC.WS (R114) -/

/-- Settles O3: DEC.WS reads nothing and writes nothing. -/
theorem decWsIsNoOp : Obligations.DecWsIsNoOp :=
  ⟨fun _ heos hc => (decode_dec_of_data heos).trans (decChar_of_ws hc), fun _ _ => rfl⟩

/-! ### DEC.DIGIT (R115) -/

/-- A group in progress with a digit more has at most four digits, so its value fits `dec.acc` (R29). -/
theorem decAcc_mul_add_lt (hi : s.DecInv) (hc : s.decCnt.toNat < 4) (hd : d < 85) :
    s.decAcc.toNat * 85 + d < 2 ^ 32 := by
  obtain ⟨-, hacc, -⟩ := hi
  have hpow : 85 ^ s.decCnt.toNat ≤ 85 ^ 3 := Nat.pow_le_pow_right (by decide) (by omega)
  rw [Config.radix] at hacc
  omega

/-- Settles O4: a latched error, a group that stays in progress, and a fifth digit with a value on either side of
`2 ^ 32`. -/
theorem decDigitEffect : Obligations.DecDigitEffect := by
  refine ⟨fun w heos hc => (decode_dec_of_data heos).trans (decChar_of_digit hc), fun c s h33 h117 hi => ?_⟩
  have hval := val_of_digit ((charClass_digit_iff c).2 ⟨h33, h117⟩)
  by_cases he : s.decErr = .none
  case neg =>
    have h := execDecDigit_of_failed hi he hval
    exact ⟨s, h, exec_decFrame (i := .decDigit c) rfl h, fun _ => rfl, fun hn => absurd hn he,
      fun hn => absurd hn he⟩
  case pos =>
    have h := execDecDigit_of_ok hi he hval
    refine ⟨_, h, exec_decFrame (i := .decDigit c) rfl h, fun hne => absurd he hne, fun _ hc => ?_, fun _ hc => ?_⟩
    · have ht := decAcc_mul_add_lt hi hc (val_lt hval)
      rw [acceptDigit_of_lt hc]
      refine ⟨?_, ?_, he, rfl⟩
      · rw [State.setDec_decAcc, BitVec.toNat_ofNat, Nat.mod_eq_of_lt ht]
      · rw [State.setDec_decCnt, BitVec.toNat_ofNat, Nat.mod_eq_of_lt (by omega)]
    · rcases Nat.lt_or_ge (s.decAcc.toNat * 85 + (c.toNat - 33)) (2 ^ 32) with ht | ht
      · rw [acceptDigit_of_fits hc.not_lt ht]
        refine ⟨rfl, rfl, fun hge => absurd hge ht.not_ge, fun x hx => ⟨he, ?_⟩⟩
        rw [State.setDec_decOut, State.emit_dec_decOut, ← hx, bytesOf_toNat]
        rfl
      · rw [acceptDigit_of_overflow hc.not_lt ht]
        exact ⟨rfl, rfl, fun _ => ⟨rfl, rfl⟩, fun x hx => absurd x.isLt (hx ▸ ht.not_gt)⟩

/-! ### DEC.Z (R116) and DEC.BAD (R117) -/

theorem decChar_of_z (h : charClass c = .z) : decChar c = .decZ := by simp only [decChar, h]

/-- Settles O5: DEC.Z is the meaning of one word; its three branches are those of `execDecZ`. -/
theorem decZEffect : Obligations.DecZEffect := by
  refine ⟨fun w heos hc => ?_, fun s hi => ?_⟩
  · have hw : decode .dec w = .decZ := (decode_dec_of_data heos).trans (decChar_of_z hc)
    have henc := encode_decode_of_data .dec heos
    rw [hw] at henc
    exact ⟨henc.symm, hw⟩
  · have h := execDecZ_of_inv hi
    refine ⟨_, h, exec_decFrame (i := .decZ) rfl h, fun he => if_pos he, fun he hc => ?_, fun he hc => ?_⟩
    · rw [if_neg (not_not.2 he), if_pos hc]
      exact ⟨decAcc_eq_zero hi hc, hc, he, rfl⟩
    · rw [if_neg (not_not.2 he), if_neg hc]
      exact ⟨rfl, rfl, rfl, rfl⟩

/-- Settles O6: with no error latched, DEC.BAD is error entry. -/
theorem decBadEffect : Obligations.DecBadEffect := by
  refine ⟨fun w heos hc => (decode_dec_of_data heos).trans (decChar_of_bad hc), fun c s hi => ?_⟩
  have h := execDecBad_of_inv hi c
  refine ⟨_, h, exec_decFrame (i := .decBad c) rfl h, ?_, fun he => if_pos he, fun he => ?_⟩
  · split <;> rfl
  · rw [if_neg (not_not.2 he)]
    exact ⟨rfl, rfl, rfl⟩

/-! ### DEC.END (R118) -/

/-- DEC.END appends its verdict to the output, and the decoder is at its reset values. -/
theorem execDecEnd_of_verdict {v : List Byte × Status} (hi : s.DecInv)
    (hv : decVerdict s.decErr s.decCnt.toNat s.decAcc.toNat = v) :
    execDecEnd s = .next { s with
      decAcc := 0, decCnt := 0, decErr := .none, decOut := s.decOut ++ messageOutput v.1 v.2 } := by
  rw [execDecEnd_of_inv hi, hv, messageOutput, ← List.append_assoc]
  rfl

/-- At most three bytes of a group are taken, so the fourth plays no part. -/
theorem take_bytesOf_toNat (x : BitVec 32) (hn : n ≤ 3) :
    (bytesOf x.toNat).take n = [x.extractLsb' 24 8, x.extractLsb' 16 8, x.extractLsb' 8 8].take n := by
  rw [bytesOf_toNat]
  exact List.take_append_of_le_length (l₁ := [x.extractLsb' 24 8, x.extractLsb' 16 8, x.extractLsb' 8 8])
    (l₂ := [x.extractLsb' 0 8]) hn

/-- Settles O7: the five outcomes are the five cases of the verdict. -/
theorem decEndEffect : Obligations.DecEndEffect := by
  refine ⟨fun w => decode_dec_of_eos, fun s hi => ?_⟩
  have h := execDecEnd_of_verdict hi rfl
  refine ⟨_, h, exec_decFrame (i := .decEnd) rfl h, rfl, rfl, rfl, fun he => ?_, fun he hc => ?_, fun he hc => ?_,
    fun he hc => ⟨fun ht => ?_, fun x hx => ?_⟩⟩
  · rw [decVerdict_failed he]; rfl
  · rw [he, hc]; rfl
  · rw [he, hc]; rfl
  · rw [he, decVerdict_overflow hc ht]; rfl
  · have ht : padTo s.decCnt.toNat s.decAcc.toNat = x.toNat := hx.symm
    obtain ⟨hcnt, -⟩ := hi
    rw [he, decVerdict_fits hc (by rw [ht]; exact x.isLt), ht, take_bytesOf_toNat x (by omega), messageOutput,
      List.map_take, List.append_assoc]
    rfl

/-! ### A failed message (R121, R168, R169) -/

theorem exec_decChar_of_failed (hi : s.DecInv) (he : s.decErr ≠ .none) (c : Byte) : exec (decChar c) s = .next s := by
  obtain ⟨-, h⟩ | ⟨hc, h⟩ | ⟨-, h⟩ | ⟨-, h⟩ := decChar_cases c
  · rw [h]; rfl
  · rw [h]; exact execDecDigit_of_failed hi he (val_of_digit hc)
  · rw [h]; exact (execDecZ_of_inv hi).trans (congrArg _ (if_pos he))
  · rw [h]; exact (execDecBad_of_inv hi c).trans (congrArg _ (if_pos he))

/-- A turn of the decoder runs the operation on the rest of the input and of the agenda. -/
theorem step_dec_turn {ws : List Symbol} {es : List Event} (ha : s.agenda = .turn .dec :: es) (hw : s.decIn = w :: ws) :
    step s = exec (decode .dec w) { s with decIn := ws, agenda := es } :=
  (step_turn ha).trans (takeTurn_cons (s := s.setAgenda es) (u := .dec) hw)

theorem step_dataSymbol_of_failed {ws : List Symbol} {es : List Event} (hi : s.DecInv) (he : s.decErr ≠ .none)
    (ha : s.agenda = .turn .dec :: es) (hw : s.decIn = dataSymbol c :: ws) :
    step s = .next { s with decIn := ws, agenda := es } := by
  rw [step_dec_turn ha hw, decode_dec_dataSymbol]
  exact exec_decChar_of_failed (s := { s with decIn := ws, agenda := es }) hi he c

theorem step_endSymbol_of_failed {ws : List Symbol} {es : List Event} (hi : s.DecInv) (he : s.decErr ≠ .none)
    (ha : s.agenda = .turn .dec :: es) (hw : s.decIn = endSymbol :: ws) :
    step s = .next { s with
      decIn := ws, agenda := es, decAcc := 0, decCnt := 0, decErr := .none,
      decOut := s.decOut ++ [.done s.decErr.status] } := by
  rw [step_dec_turn ha hw, decode_dec_endSymbol]
  exact execDecEnd_of_verdict (s := { s with decIn := ws, agenda := es }) hi (decVerdict_failed he _ _)

/-- With an error latched, data symbols are consumed one per turn and change nothing else. -/
theorem runsTo_dataSymbols_of_failed (cs : List Byte) {ws : List Symbol} {es : List Event} (hi : s.DecInv)
    (he : s.decErr ≠ .none) (hw : s.decIn = cs.map dataSymbol ++ ws) (ha : s.agenda = turns .dec cs.length es) :
    RunsTo cs.length s { s with decIn := ws, agenda := es } := by
  induction cs generalizing s with
  | nil =>
    obtain rfl : s.decIn = ws := hw
    obtain rfl : s.agenda = es := ha
    exact RunsTo.zero s
  | cons c cs ih =>
    exact RunsTo.succ (step_dataSymbol_of_failed hi he ha hw) (ih hi he rfl rfl)

theorem turns_add (u : Agent) (m n : Nat) (es : List Event) : turns u (m + n) es = turns u m (turns u n es) := by
  simp only [turns, List.replicate_add, List.append_assoc]

/-- Settles O14: the characters are drained, and the verdict of the end marker is the error latched. -/
theorem failedMessageDrains : Obligations.FailedMessageDrains := by
  intro cs rest es s hi he hw ha
  rw [messageSymbols, List.append_assoc] at hw
  rw [turns_add] at ha
  have drain := runsTo_dataSymbols_of_failed cs hi he hw ha
  exact ⟨drain, drain.trans (RunsTo.succ (step_endSymbol_of_failed hi he rfl rfl) (RunsTo.zero _))⟩

end Decoder

end Sys2Proof

namespace Sys2Proof

open Machine

/-! ## Whole messages (42_message_level.md): what `encode` and `decode` do group by group -/

section Messages

variable {bs pre post cs : List Byte} {ds : List Nat} {v : Nat}

/-! ### Values of a string and of its parts (R76, R110) -/

theorem value_append (ds es : List Nat) : value (ds ++ es) = value ds * 85 ^ es.length + value es := by
  rw [value_eq_ofDigits, List.reverse_append, Nat.ofDigits_append, List.length_reverse, ← value_eq_ofDigits,
    ← value_eq_ofDigits, Nat.add_comm, Nat.mul_comm]

theorem beValue_append (bs cs : List Byte) : beValue (bs ++ cs) = beValue bs * 256 ^ cs.length + beValue cs := by
  rw [beValue_eq_ofDigits, List.map_append, List.reverse_append, Nat.ofDigits_append, List.length_reverse,
    List.length_map, ← beValue_eq_ofDigits, ← beValue_eq_ofDigits, Nat.add_comm, Nat.mul_comm]

theorem eq_div_of_mul_add {x a r m : Nat} (h : x = a * m + r) (hr : r < m) : a = x / m := by
  rw [h, Nat.mul_comm, Nat.mul_add_div (by omega), Nat.div_eq_of_lt hr, Nat.add_zero]

theorem value_take (h : ∀ d ∈ ds, d < 85) (n : Nat) : value (ds.take n) = value ds / 85 ^ (ds.length - n) := by
  rw [← List.length_drop]
  exact eq_div_of_mul_add (by rw [← value_append, List.take_append_drop])
    (value_lt fun d hd => h d (List.mem_of_mem_drop hd))

theorem beValue_take (bs : List Byte) (n : Nat) : beValue (bs.take n) = beValue bs / 256 ^ (bs.length - n) := by
  rw [← List.length_drop]
  exact eq_div_of_mul_add (by rw [← beValue_append, List.take_append_drop]) (beValue_lt _)

/-! ### A partial group there and back (R94, R111, R145) -/

/-- The first `n` digits of a value, padded: the value with its other places filled with the digit 84. -/
theorem padded_take_digits (hv : v < 2 ^ 32) {n : Nat} (hn : n ≤ 5) :
    padded ((digits v).take n) = v / 85 ^ (5 - n) * 85 ^ (5 - n) + (85 ^ (5 - n) - 1) := by
  have hlen : ((digits v).take n).length = n := by rw [List.length_take, length_digits]; omega
  rw [padded, padTo, hlen, value_take (fun _ => digits_lt), value_digits (hv.trans (by decide)), length_digits]

/-- Why a partial group survives the round trip: the encoder pads with zeros and drops `k` digits, the decoder fills up
with the digit 84, and that changes the value by less than the `256 ^ k` that the bytes stand on. -/
theorem padded_take_digits_pack_div (h : bs.length ≤ 4) :
    padded ((digits (pack bs)).take (bs.length + 1)) / 256 ^ (4 - bs.length) = beValue bs := by
  have hpad := padded_take_digits (pack_lt h) (n := bs.length + 1) (by omega)
  have hpack : pack bs = beValue bs * 256 ^ (4 - bs.length) := rfl
  rw [Nat.succ_sub_succ] at hpad
  generalize 4 - bs.length = k at *
  have hpow : 85 ^ k ≤ 256 ^ k := Nat.pow_le_pow_left (by decide) k
  have hpos : 0 < 85 ^ k := by positivity
  have hmod := Nat.mod_lt (pack bs) hpos
  have hdiv := Nat.div_add_mod' (pack bs) (85 ^ k)
  apply Nat.div_eq_of_lt_le
  · omega
  · rw [Nat.succ_mul]; omega

theorem take_bytesOf {t : Nat} (hlen : bs.length ≤ 4) (ht : t / 256 ^ (4 - bs.length) = beValue bs) :
    t < 2 ^ 32 ∧ (bytesOf t).take bs.length = bs := by
  have hlt : t < 2 ^ 32 := by
    calc t < 256 ^ bs.length * 256 ^ (4 - bs.length) :=
          (Nat.div_lt_iff_lt_mul (by positivity)).1 (ht ▸ beValue_lt bs)
      _ = 2 ^ 32 := by rw [← pow_add, Nat.add_sub_cancel' hlen]; norm_num
  have hval : beValue (bytesOf t) = t := (pack_four _ _ _ _).symm.trans (pack_bytesOf hlt)
  refine ⟨hlt, (existsUnique_beValue (beValue_lt bs)).unique ⟨?_, ?_⟩ ⟨rfl, rfl⟩⟩
  · rw [List.length_take, length_bytesOf, Nat.min_eq_left hlen]
  · rw [beValue_take, length_bytesOf, hval, ht]

/-! ### `encode` (R141) -/

theorem encodeMsg_append (h : pre.length % 4 = 0) (post : List Byte) :
    encodeMsg (pre ++ post) = encodeMsg pre ++ encodeMsg post := by
  induction pre using group_induction with
  | short bs hlen =>
    obtain rfl : bs = [] := List.length_eq_zero_iff.1 (by omega)
    rfl
  | four b₀ b₁ b₂ b₃ bs ih =>
    rw [encodeMsg_four, List.append_assoc, ← ih (by simp only [List.length_cons] at h; omega)]
    rfl

/-- The length of the encoding of less than a group. -/
theorem length_encodeMsg_short (h : bs.length ≤ 3) :
    (encodeMsg bs).length = if bs.length % 4 = 0 then 0 else bs.length % 4 + 1 := by
  rcases Nat.eq_zero_or_pos bs.length with h0 | h0
  · rw [List.length_eq_zero_iff.1 h0]; rfl
  · rw [encodeMsg_partial h0 h, length_encPartial _ _ (by omega), Nat.mod_eq_of_lt (by omega), if_neg (by omega)]

/-- Settles O50: a group adds one character or five, and what is left over adds one more than its bytes. -/
theorem lengthOfEncodedMessage : Obligations.LengthOfEncodedMessage := by
  intro bs
  induction bs using group_induction with
  | short bs h =>
    rw [zeroGroups_short h, length_encodeMsg_short h, Nat.div_eq_of_lt (by omega)]
    exact ⟨Nat.zero_le _, (Nat.zero_add _).symm⟩
  | four b₀ b₁ b₂ b₃ bs ih =>
    obtain ⟨hle, hlen⟩ := ih
    have hdiv : (b₀ :: b₁ :: b₂ :: b₃ :: bs).length / 4 = bs.length / 4 + 1 := by simp only [List.length_cons]; omega
    have hmod : (b₀ :: b₁ :: b₂ :: b₃ :: bs).length % 4 = bs.length % 4 := by simp only [List.length_cons]; omega
    rw [hdiv, hmod, zeroGroups_four, encodeMsg_four, List.length_append, length_encFull, hlen]
    split <;> omega

theorem count_chars (v : Nat) : (chars v).count 0x7A#8 = 0 :=
  List.count_eq_zero.2 fun h => absurd (mem_chars h) (by decide)

theorem count_encFull (v : Nat) : (encFull v).count 0x7A#8 = if v = 0 then 1 else 0 := by
  by_cases hv : v = 0
  · rw [if_pos hv, hv]; rfl
  · rw [if_neg hv, encFull_of_ne_zero hv, count_chars]

theorem count_encPartial (n v : Nat) : (encPartial n v).count 0x7A#8 = 0 :=
  Nat.eq_zero_of_le_zero (count_chars v ▸ (List.take_sublist _ _).count_le _)

/-- No character but the shortcut is `z`, so a `z` is an aligned group of zeros (R146). -/
theorem count_encodeMsg (bs : List Byte) : (encodeMsg bs).count 0x7A#8 = zeroGroups bs := by
  induction bs using group_induction with
  | short bs h =>
    rw [zeroGroups_short h]
    rcases Nat.eq_zero_or_pos bs.length with h0 | h0
    · rw [List.length_eq_zero_iff.1 h0]; rfl
    · rw [encodeMsg_partial h0 h, count_encPartial]
  | four b₀ b₁ b₂ b₃ bs ih => rw [encodeMsg_four, List.count_append, count_encFull, ih, zeroGroups_four]

end Messages

/-! ## The pass of `decode` (R142) -/

namespace Machine

/-- The pass with other bytes in front of its output. -/
def Pass.prepend (o : List Byte) (p : Pass) : Pass := { p with out := o ++ p.out }

/-- What every pass keeps: a group in progress is short of five digits, and only an end marker finds one too short. -/
structure Pass.Wf (p : Pass) : Prop where
  length_le : p.ds.length ≤ 4
  digit_lt : ∀ d ∈ p.ds, d < 85
  not_truncated : p.failed ≠ .truncatedGroup

end Machine

section DecodePass

variable {p : Pass} {c : Byte} {cs pre : List Byte} {o : List Byte} {d : Nat}

/-! ### One character -/

/-- A digit joins a short group, or ends a group that overflows or fits. -/
theorem pass_digit_cases (h : p.ds.length ≤ 4) (d : Nat) :
    (p.ds.length < 4 ∧ p.digit d = { p with ds := p.ds ++ [d] }) ∨
      (p.ds.length = 4 ∧ 2 ^ 32 ≤ value (p.ds ++ [d]) ∧ p.digit d = { p with ds := [], failed := .overflow }) ∨
      (p.ds.length = 4 ∧ value (p.ds ++ [d]) < 2 ^ 32 ∧
        p.digit d = { p with ds := [], out := p.out ++ bytesOf (value (p.ds ++ [d])) }) := by
  rcases Nat.lt_or_eq_of_le h with h4 | h4
  · exact .inl ⟨h4, Pass.digit_short h4⟩
  · rcases Nat.lt_or_ge (value (p.ds ++ [d])) (2 ^ 32) with ht | ht
    · exact .inr (.inr ⟨h4, ht, Pass.digit_fits h4 ht⟩)
    · exact .inr (.inl ⟨h4, ht, Pass.digit_overflow h4 ht⟩)

/-- What a character can do to a pass that has not failed. -/
theorem pass_char_cases (hf : p.failed = .none) (c : Byte) :
    (charClass c = .ws ∧ p.char c = p) ∨
      (charClass c = .bad ∧ p.char c = { p with failed := .invalidCharacter }) ∨
      (charClass c = .z ∧ p.ds = [] ∧ p.char c = { p with out := p.out ++ [0, 0, 0, 0] }) ∨
      (charClass c = .z ∧ p.ds ≠ [] ∧ p.char c = { p with failed := .invalidCharacter }) ∨
      (charClass c = .digit ∧ p.char c = p.digit (c.toNat - 33)) := by
  cases hc : charClass c with
  | ws => exact .inl ⟨rfl, Pass.char_ws hc⟩
  | bad => exact .inr (.inl ⟨rfl, Pass.char_bad hf hc⟩)
  | z =>
    rcases eq_or_ne p.ds [] with hd | hd
    · exact .inr (.inr (.inl ⟨rfl, hd, Pass.char_z_boundary hf hc hd⟩))
    · exact .inr (.inr (.inr (.inl ⟨rfl, hd, Pass.char_z_inside hf hc hd⟩)))
  | digit => exact .inr (.inr (.inr (.inr ⟨rfl, Pass.char_digit hf hc⟩)))

theorem toNat_sub_lt_of_digit (hc : charClass c = .digit) : c.toNat - 33 < 85 := by
  have := (charClass_digit_iff c).1 hc
  omega

/-! ### What the pass keeps -/

theorem pass_start_wf : Pass.start.Wf := ⟨by decide, by decide, by decide⟩

theorem pass_digit_keeps_wf (h : p.Wf) (hd : d < 85) : (p.digit d).Wf := by
  obtain ⟨h4, e⟩ | ⟨-, -, e⟩ | ⟨-, -, e⟩ := pass_digit_cases h.length_le d
  · rw [e]
    refine ⟨?_, List.forall_mem_append.2 ⟨h.digit_lt, List.forall_mem_singleton.2 hd⟩, h.not_truncated⟩
    rw [List.length_append, List.length_singleton]; omega
  · rw [e]; exact ⟨Nat.zero_le 4, List.forall_mem_nil _, by simp⟩
  · rw [e]; exact ⟨Nat.zero_le 4, List.forall_mem_nil _, h.not_truncated⟩

theorem pass_char_keeps_wf (h : p.Wf) (c : Byte) : (p.char c).Wf := by
  by_cases hf : p.failed = .none
  · obtain ⟨-, e⟩ | ⟨-, e⟩ | ⟨-, -, e⟩ | ⟨-, -, e⟩ | ⟨hc, e⟩ := pass_char_cases hf c
    · rw [e]; exact h
    · rw [e]; exact ⟨h.length_le, h.digit_lt, by simp⟩
    · rw [e]; exact ⟨h.length_le, h.digit_lt, h.not_truncated⟩
    · rw [e]; exact ⟨h.length_le, h.digit_lt, by simp⟩
    · rw [e]; exact pass_digit_keeps_wf h (toNat_sub_lt_of_digit hc)
  · rw [Pass.char_failed hf]; exact h

theorem foldl_char_wf (h : p.Wf) (cs : List Byte) : (cs.foldl Pass.char p).Wf :=
  List.foldlRecOn cs Pass.char h fun _ hp c _ => pass_char_keeps_wf hp c

/-- The digits in progress are the alphabet characters left over by the groups of five (R148). -/
theorem length_ds_foldl (cs : List Byte) (hf : (cs.foldl Pass.char Pass.start).failed = .none) :
    (cs.foldl Pass.char Pass.start).ds.length = (cs.filter fun c => charClass c == .digit).length % 5 := by
  induction cs using List.reverseRecOn with
  | nil => rfl
  | append_singleton cs c ih =>
    have hwf := foldl_char_wf pass_start_wf cs
    rw [List.foldl_append, List.foldl_cons, List.foldl_nil] at hf ⊢
    rw [List.filter_append]
    generalize cs.foldl Pass.char Pass.start = p at *
    by_cases hp : p.failed = .none
    case neg => rw [Pass.char_failed hp] at hf; exact absurd hf hp
    case pos =>
      have ih := ih hp
      obtain ⟨hc, e⟩ | ⟨hc, e⟩ | ⟨hc, -, e⟩ | ⟨hc, -, e⟩ | ⟨hc, e⟩ := pass_char_cases hp c
      · simpa [e, hc] using ih
      · rw [e] at hf; cases hf
      · simpa [e, hc] using ih
      · rw [e] at hf; cases hf
      · have hone : ([c].filter fun c => charClass c == .digit) = [c] := by simp [hc]
        rw [hone, List.length_append, List.length_singleton, e]
        obtain ⟨h4, ed⟩ | ⟨-, -, ed⟩ | ⟨h4, -, ed⟩ := pass_digit_cases hwf.length_le (c.toNat - 33)
        · rw [ed]; simp only [List.length_append, List.length_singleton]; omega
        · rw [e, ed] at hf; cases hf
        · rw [ed]; simp only [List.length_nil]; omega

/-! ### The end of the pass -/

/-- The end of the pass is the verdict of DEC.END on the pass's variables (R118, R142). -/
theorem finish_eq_decVerdict (p : Pass) :
    p.finish = ((decVerdict p.failed p.ds.length (value p.ds)).2,
      p.out ++ (decVerdict p.failed p.ds.length (value p.ds)).1) := by
  by_cases hf : p.failed = .none
  case neg => rw [Pass.finish_failed hf, decVerdict_failed hf, List.append_nil]
  case pos =>
    rw [hf]
    rcases Nat.lt_trichotomy p.ds.length 1 with h0 | h1 | h2
    · have hd : p.ds = [] := List.length_eq_zero_iff.1 (by omega)
      rw [Pass.finish_clean hf hd, hd, List.length_nil, decVerdict_zero, List.append_nil]
    · rw [Pass.finish_one hf h1, h1, decVerdict_one, List.append_nil]
    · rcases Nat.lt_or_ge (padded p.ds) (2 ^ 32) with ht | ht
      · rw [Pass.finish_fits hf h2 ht, decVerdict_fits h2 ht]; rfl
      · rw [Pass.finish_overflow hf h2 ht, decVerdict_overflow h2 ht, List.append_nil]

theorem errStatus_ne_ok {e : Err} (h : e ≠ .none) : e.status ≠ .ok := by
  cases e with
  | none => exact absurd rfl h
  | invalidCharacter | truncatedGroup | overflow => simp [Err.status]

theorem errStatus_ne_truncatedGroup {e : Err} (h : e ≠ .truncatedGroup) : e.status ≠ .truncatedGroup := by
  cases e with
  | truncatedGroup => exact absurd rfl h
  | none | invalidCharacter | overflow => simp [Err.status]

theorem finish_truncated_iff (h : p.Wf) : p.finish.1 = .truncatedGroup ↔ p.failed = .none ∧ p.ds.length = 1 := by
  by_cases hf : p.failed = .none
  case neg =>
    rw [Pass.finish_failed hf]
    exact ⟨fun e => absurd e (errStatus_ne_truncatedGroup h.not_truncated), fun e => absurd e.1 hf⟩
  case pos =>
    rcases Nat.lt_trichotomy p.ds.length 1 with h0 | h1 | h2
    · rw [Pass.finish_clean hf (List.length_eq_zero_iff.1 (by omega))]; simp; omega
    · rw [Pass.finish_one hf h1]; simp [hf, h1]
    · rcases Nat.lt_or_ge (padded p.ds) (2 ^ 32) with ht | ht
      · rw [Pass.finish_fits hf h2 ht]; simp; omega
      · rw [Pass.finish_overflow hf h2 ht]; simp; omega

/-- Settles O54: a pass reports TruncatedGroup when it ends with one digit in progress and no error. -/
theorem truncationLaw : Obligations.TruncationLaw := by
  intro cs
  rw [decodeMsg, finish_truncated_iff (foldl_char_wf pass_start_wf cs)]
  exact and_congr_right fun hf => by rw [length_ds_foldl cs hf]

/-- Settles O53: from the bad character on the pass has failed, and it keeps its first error. -/
theorem badCharacterFails : Obligations.BadCharacterFails := by
  intro pre post c hc
  rw [decodeMsg, List.foldl_append, List.foldl_cons]
  generalize pre.foldl Pass.char Pass.start = p
  by_cases hf : p.failed = .none
  · rw [Pass.char_bad hf hc, Pass.foldl_failed (by simp), Pass.finish_failed (by simp), if_pos hf]
    exact ⟨by simp [Err.status], rfl⟩
  · rw [Pass.char_failed hf, Pass.foldl_failed hf, Pass.finish_failed hf, if_neg hf]
    exact ⟨errStatus_ne_ok hf, rfl⟩

/-! ### Whitespace -/

theorem foldl_char_filter_ws (cs : List Byte) (p : Pass) :
    (cs.filter fun c => charClass c != .ws).foldl Pass.char p = cs.foldl Pass.char p := by
  induction cs generalizing p with
  | nil => rfl
  | cons c cs ih =>
    rw [List.foldl_cons]
    by_cases hc : charClass c = .ws
    · rw [List.filter_cons_of_neg (by simp [hc]), ih, Pass.char_ws hc]
    · rw [List.filter_cons_of_pos (by simpa using hc), List.foldl_cons, ih]

/-- Settles O57: a whitespace character leaves the pass as it is, failed or not. -/
theorem whitespaceIsSkipped : Obligations.WhitespaceIsSkipped :=
  fun cs => congrArg Pass.finish (foldl_char_filter_ws cs Pass.start).symm

/-! ### Texts one after the other -/

theorem digit_prepend (h : p.ds.length ≤ 4) (o : List Byte) (d : Nat) :
    (p.prepend o).digit d = (p.digit d).prepend o := by
  obtain ⟨h4, e⟩ | ⟨h4, ht, e⟩ | ⟨h4, ht, e⟩ := pass_digit_cases h d
  · rw [e, Pass.digit_short (p := p.prepend o) h4]; rfl
  · rw [e, Pass.digit_overflow (p := p.prepend o) h4 ht]; rfl
  · rw [e, Pass.digit_fits (p := p.prepend o) h4 ht]
    simp only [Pass.prepend, List.append_assoc]

/-- No character reads the output. -/
theorem char_prepend (h : p.Wf) (o : List Byte) (c : Byte) : (p.prepend o).char c = (p.char c).prepend o := by
  by_cases hf : p.failed = .none
  case neg => rw [Pass.char_failed hf, Pass.char_failed (p := p.prepend o) hf]
  case pos =>
    have hf' : (p.prepend o).failed = .none := hf
    obtain ⟨hc, e⟩ | ⟨hc, e⟩ | ⟨hc, hd, e⟩ | ⟨hc, hd, e⟩ | ⟨hc, e⟩ := pass_char_cases hf c
    · rw [e, Pass.char_ws hc]
    · rw [e, Pass.char_bad hf' hc]; rfl
    · rw [e, Pass.char_z_boundary hf' hc hd]
      simp only [Pass.prepend, List.append_assoc]
    · rw [e, Pass.char_z_inside hf' hc hd]; rfl
    · rw [e, Pass.char_digit hf' hc, digit_prepend h.length_le]

theorem foldl_char_prepend (h : p.Wf) (o : List Byte) (cs : List Byte) :
    cs.foldl Pass.char (p.prepend o) = (cs.foldl Pass.char p).prepend o := by
  induction cs generalizing p with
  | nil => rfl
  | cons c cs ih => rw [List.foldl_cons, List.foldl_cons, char_prepend h, ih (pass_char_keeps_wf h c)]

theorem finish_prepend (o : List Byte) (p : Pass) : (p.prepend o).finish = (p.finish.1, o ++ p.finish.2) := by
  rw [finish_eq_decVerdict, finish_eq_decVerdict, Pass.prepend, List.append_assoc]

/-- At a group boundary with no error the decoder starts afresh (R44, R146). -/
theorem decodeMsg_append (hpre : pre.foldl Pass.char Pass.start = { ds := [], out := o, failed := .none })
    (post : List Byte) : decodeMsg (pre ++ post) = ((decodeMsg post).1, o ++ (decodeMsg post).2) := by
  have hstart : pre.foldl Pass.char Pass.start = Pass.start.prepend o := by
    rw [hpre, Pass.prepend]; simp [Pass.start]
  rw [decodeMsg, List.foldl_append, hstart, foldl_char_prepend pass_start_wf, finish_prepend]
  rfl

theorem decodeMsg_of_boundary (hf : (cs.foldl Pass.char Pass.start).failed = .none)
    (hd : (cs.foldl Pass.char Pass.start).ds = []) :
    cs.foldl Pass.char Pass.start = { ds := [], out := (decodeMsg cs).2, failed := .none } := by
  rw [decodeMsg, Pass.finish_clean hf hd, ← hf, ← hd]

end DecodePass

/-! ## Texts group by group (R144 to R149) -/

section Groups

variable {p : Pass} {cs pre : List Byte} {ds : List Nat} {v d : Nat} {c : Byte}

/-! ### Groups of alphabet characters -/

/-- Alphabet characters that do not fill the group join it. -/
theorem foldl_char_digits (hf : p.failed = .none) (hcs : ∀ c ∈ cs, charClass c = .digit)
    (hlen : p.ds.length + cs.length ≤ 4) :
    cs.foldl Pass.char p = { p with ds := p.ds ++ cs.map (·.toNat - 33) } := by
  induction cs generalizing p with
  | nil => simp
  | cons c cs ih =>
    rw [List.length_cons] at hlen
    obtain ⟨hc, hcs⟩ := List.forall_mem_cons.1 hcs
    rw [List.foldl_cons, Pass.char_digit hf hc, Pass.digit_short (by omega),
      ih (p := { p with ds := p.ds ++ [c.toNat - 33] }) hf hcs]
    · simp
    · rw [List.length_append, List.length_singleton]; omega

theorem foldl_char_chr (hds : ∀ d ∈ ds, d < 85) (hlen : ds.length ≤ 4) :
    (ds.map chr).foldl Pass.char Pass.start = { ds := ds, out := [], failed := .none } := by
  have hdigits : (ds.map chr).map (·.toNat - 33) = ds := by
    rw [List.map_map]
    refine (List.map_congr_left fun d hd => ?_).trans (List.map_id ds)
    rw [Function.comp_apply, chr_toNat (hds d hd), Nat.add_sub_cancel_left, id]
  rw [foldl_char_digits rfl (List.forall_mem_map.2 fun d hd => charClass_chr (hds d hd)), hdigits]
  · rfl
  · rw [List.length_map]; exact (Nat.zero_add _).trans_le hlen

/-- The fifth character of a group ends it (R115, R142). -/
theorem foldl_char_chr_five (hds : ∀ d ∈ ds, d < 85) (hlen : ds.length = 5) :
    (ds.map chr).foldl Pass.char Pass.start =
      if 2 ^ 32 ≤ value ds then { ds := [], out := [], failed := .overflow }
      else { ds := [], out := bytesOf (value ds), failed := .none } := by
  obtain ⟨es, d, rfl⟩ : ∃ es d, ds = es ++ [d] := by
    simpa using List.eq_nil_or_concat ds |>.resolve_left (by rintro rfl; cases hlen)
  obtain ⟨hes, hd⟩ := List.forall_mem_append.1 hds
  have hd : d < 85 := hd d (List.mem_singleton_self d)
  have hlen : es.length = 4 := by simpa using hlen
  rw [List.map_append, List.map_singleton, List.foldl_append, foldl_char_chr hes hlen.le, List.foldl_cons,
    List.foldl_nil, Pass.char_digit rfl (charClass_chr hd), chr_toNat hd, Nat.add_sub_cancel_left]
  split
  next ht => exact Pass.digit_overflow hlen ht
  next ht => exact Pass.digit_fits hlen (Nat.lt_of_not_le ht)

/-- Settles O55: the fifth character of a group whose value does not fit latches Overflow, and nothing was emitted. -/
theorem overflowLaw : Obligations.OverflowLaw := by
  refine ⟨by decide, by decide, by decide, fun ds hlen hds ht => ?_⟩
  rw [decodeMsg, foldl_char_chr_five hds hlen, if_pos ht]
  rfl

/-! ### The round trip (R144) -/

/-- The text of a full group, `z` or five characters, decodes to the group's bytes and ends at a boundary. -/
theorem foldl_char_encFull (hv : v < 2 ^ 32) :
    (encFull v).foldl Pass.char Pass.start = { ds := [], out := bytesOf v, failed := .none } := by
  by_cases h0 : v = 0
  · rw [h0]; rfl
  · have hval : value (digits v) = v := value_digits (hv.trans (by decide))
    rw [encFull_of_ne_zero h0, chars, foldl_char_chr_five (fun _ => digits_lt) (length_digits v), hval,
      if_neg (Nat.not_le.2 hv)]

theorem decodeMsg_encodeMsg_partial {bs : List Byte} (h1 : 1 ≤ bs.length) (h3 : bs.length ≤ 3) :
    decodeMsg (encodeMsg bs) = (.ok, bs) := by
  have hlen : ((digits (pack bs)).take (bs.length + 1)).length = bs.length + 1 := by
    rw [List.length_take, length_digits]; omega
  obtain ⟨ht, htake⟩ := take_bytesOf (by omega) (padded_take_digits_pack_div (bs := bs) (by omega))
  rw [encodeMsg_partial h1 h3, encPartial, chars, ← List.map_take, decodeMsg,
    foldl_char_chr (fun d hd => digits_lt (List.mem_of_mem_take hd)) (by omega),
    Pass.finish_fits rfl (by rw [hlen]; omega) ht, hlen, Nat.add_sub_cancel, htake, List.nil_append]

/-- Settles O48: group by group; the text of each full group ends at a boundary, where the decoder starts afresh. -/
theorem decodeOfEncodeIsTheMessage : Obligations.DecodeOfEncodeIsTheMessage := by
  intro bs
  induction bs using group_induction with
  | short bs h3 =>
    rcases Nat.eq_zero_or_pos bs.length with h0 | h1
    · rw [List.length_eq_zero_iff.1 h0]; rfl
    · exact decodeMsg_encodeMsg_partial h1 h3
  | four b₀ b₁ b₂ b₃ bs ih =>
    have hv : pack [b₀, b₁, b₂, b₃] < 2 ^ 32 := pack_lt (Nat.le_refl 4)
    rw [encodeMsg_four, decodeMsg_append (foldl_char_encFull hv), ih, bytesOf_pack]
    rfl

/-! ### Partial groups and the shortcut (R145, R146) -/

/-- A partial group at the end of a text gives one byte less than it has characters, or fails with Overflow. -/
theorem decodeMsg_partial (hcs : ∀ c ∈ cs, charClass c = .digit) (h2 : 2 ≤ cs.length) (h4 : cs.length ≤ 4) :
    (∃ bs, decodeMsg cs = (.ok, bs) ∧ bs.length = cs.length - 1) ∨ decodeMsg cs = (.overflow, []) := by
  have hpass : cs.foldl Pass.char Pass.start = { ds := cs.map (·.toNat - 33), out := [], failed := .none } :=
    foldl_char_digits rfl hcs ((Nat.zero_add _).trans_le h4)
  have hlen : (cs.map (·.toNat - 33)).length = cs.length := List.length_map _
  rw [decodeMsg, hpass]
  rcases Nat.lt_or_ge (padded (cs.map (·.toNat - 33))) (2 ^ 32) with ht | ht
  · refine .inl ⟨_, Pass.finish_fits rfl (hlen.symm ▸ h2) ht, ?_⟩
    rw [List.nil_append, List.length_take, length_bytesOf, hlen]
    omega
  · exact .inr (Pass.finish_overflow rfl (hlen.symm ▸ h2) ht)

/-- Settles O51: each half is about the partial group alone, which stands after a group boundary. -/
theorem partialGroupAsymmetry : Obligations.PartialGroupAsymmetry := by
  refine ⟨fun pre tail hpre h1 h3 => ⟨encodeMsg tail, encodeMsg_append hpre tail, ?_⟩,
    fun pre tail hf hd htail h2 h4 => ?_⟩
  · rw [encodeMsg_partial h1 h3, length_encPartial _ _ (by omega)]
  · rw [decodeMsg_append (decodeMsg_of_boundary hf hd)]
    obtain ⟨bs, e, hlen⟩ | e := decodeMsg_partial htail h2 h4
    · exact .inl ⟨bs, by rw [e], hlen⟩
    · exact .inr (by rw [e, List.append_nil])

/-- Settles O52: both functions start afresh after a `z`, and `encode` writes it for aligned zeros only. -/
theorem zeroShortcut : Obligations.ZeroShortcut := by
  refine ⟨fun pre post hpre => ?_, fun pre post hf hd => ?_, count_encodeMsg, by decide, by decide, by decide⟩
  · have hz : encodeMsg [0, 0, 0, 0] = [0x7A#8] := by decide
    rw [List.append_assoc, encodeMsg_append hpre, encodeMsg_append (pre := [0, 0, 0, 0]) rfl, hz, List.append_assoc]
  · have hz : [0x7A#8].foldl Pass.char Pass.start = { ds := [], out := [0, 0, 0, 0], failed := .none } := rfl
    have hpost : decodeMsg (0x7A#8 :: post) = _ := decodeMsg_append hz post
    rw [decodeMsg_append (decodeMsg_of_boundary hf hd), hpost, List.append_assoc]

/-! ### Results, and fixed texts (R143, R152) -/

/-- Settles O59, status by status. -/
theorem failedDecodeGivesNoBytes : Obligations.FailedDecodeGivesNoBytes := by
  intro cs
  unfold decodeResult
  generalize decodeMsg cs = r
  obtain ⟨st, bs⟩ := r
  cases st with
  | ok => exact ⟨fun _ => rfl, fun h => absurd rfl h⟩
  | invalidCharacter | truncatedGroup | overflow => exact ⟨nofun, fun _ => rfl⟩

/-- Settles O58: five characters of digit 0 decode to the bytes that `encode` writes as `z`. -/
theorem decodeIsNotInjective : Obligations.DecodeIsNotInjective :=
  ⟨by decide, by decide, by decide, by decide, by decide, [0x21#8, 0x21#8, 0x21#8, 0x21#8, 0x21#8], by decide⟩

end Groups

end Sys2Proof

namespace Sys2Proof

open Machine

/-! ## Runs on whole messages (R140, R182, R184)

The registers stand for the group in progress (R36): each unit runs on the states that stand for what `encode` and
`decode` hold when they have read a part of the message. -/

namespace Machine

/-- The state with the encoder's registers standing for the bytes `g` of the group in progress (R36). -/
def State.encHolding (s : State) (g : List Byte) : State :=
  { s with encAcc := BitVec.ofNat 32 (beValue g), encCnt := BitVec.ofNat 2 g.length }

/-- The digits that the decoder holds after the pass: none once it has failed (R166). -/
def Pass.pending (p : Pass) : List Nat := if p.failed = .none then p.ds else []

/-- The state with the decoder's registers standing for the pass, and the pass's bytes emitted (R36, R142). -/
def State.decHolding (s : State) (p : Pass) : State :=
  { s with
    decAcc := BitVec.ofNat 32 (value p.pending), decCnt := BitVec.ofNat 3 p.pending.length, decErr := p.failed,
    decOut := s.decOut ++ p.out.map .data }

end Machine

theorem messageOutput_append (bs cs : List Byte) (st : Status) :
    messageOutput (bs ++ cs) st = bs.map .data ++ messageOutput cs st := by
  simp only [messageOutput, List.map_append, List.append_assoc]

theorem length_messageSymbols (cs : List Byte) : (messageSymbols cs).length = cs.length + 1 := by
  simp [messageSymbols]

section EncoderRun

variable {s : State} {g bs : List Byte} {b : Byte} {w : Symbol} {ws : List Symbol} {es : List Event}

/-! ### The encoder's registers hold a group in progress -/

theorem encHolding_encCnt (h : g.length ≤ 3) : (s.encHolding g).encCnt.toNat = g.length := by
  rw [State.encHolding, BitVec.toNat_ofNat, Nat.mod_eq_of_lt (by omega)]

theorem encHolding_encAcc (h : g.length ≤ 3) : (s.encHolding g).encAcc.toNat = beValue g := by
  have hlt : beValue g < 256 ^ 3 := (beValue_lt g).trans_le (Nat.pow_le_pow_right (by decide) h)
  rw [State.encHolding, BitVec.toNat_ofNat, Nat.mod_eq_of_lt (by omega)]

theorem encHolding_encInv (h : g.length ≤ 3) : (s.encHolding g).EncInv := by
  rw [State.EncInv, encHolding_encCnt h, encHolding_encAcc h]
  exact beValue_lt g

theorem encHolding_nil (h : EncAtReset s) : s.encHolding [] = s := by
  obtain ⟨hacc, hcnt⟩ := h
  have : s.encHolding [] = { s with encAcc := 0, encCnt := 0 } := rfl
  rw [this, ← hacc, ← hcnt]

/-! ### The encoder's operations on a group in progress (R95, R96) -/

theorem execEncByte_encHolding_short (h : g.length < 3) (b : Byte) :
    execEncByte b (s.encHolding g) = .next (s.encHolding (g ++ [b])) := by
  rw [execEncByte_of_lt (encHolding_encInv h.le) (by rwa [encHolding_encCnt h.le]), encHolding_encCnt h.le,
    encHolding_encAcc h.le, ← beValue_snoc]
  rw [State.encHolding, State.encHolding, List.length_append, List.length_singleton]
  rfl

theorem execEncByte_encHolding_full (h : g.length = 3) (b : Byte) :
    execEncByte b (s.encHolding g) = .next ((s.emit .enc (encodeMsg (g ++ [b]))).encHolding []) := by
  obtain ⟨b₀, b₁, b₂, rfl⟩ := List.length_eq_three.1 h
  rw [execEncByte_of_full (encHolding_encInv h.le) (by rw [encHolding_encCnt h.le, h]), encHolding_encAcc h.le,
    ← beValue_snoc, List.cons_append, List.cons_append, List.cons_append, List.nil_append, encodeMsg_four,
    encodeMsg_nil, List.append_nil, pack_four]
  rfl

theorem encTail_length_beValue (h : g.length ≤ 3) : encTail g.length (beValue g) = encodeMsg g := by
  rcases Nat.eq_zero_or_pos g.length with h0 | h0
  · rw [List.length_eq_zero_iff.1 h0]; rfl
  · rw [encodeMsg_partial h0 h]
    exact if_neg h0.ne'

theorem execEncEnd_encHolding (h : g.length ≤ 3) :
    execEncEnd (s.encHolding g) = .next { s with
      encAcc := 0, encCnt := 0, encOut := s.encOut ++ messageOutput (encodeMsg g) .ok } := by
  rw [execEncEnd_of_inv (encHolding_encInv h), encHolding_encCnt h, encHolding_encAcc h, encTail_length_beValue h,
    messageOutput, ← List.append_assoc]
  rfl

/-! ### The encoder's run (R140, R141) -/

/-- A turn of the encoder runs the operation on the rest of the input and of the agenda. -/
theorem step_enc_turn (ha : s.agenda = .turn .enc :: es) (hw : s.encIn = w :: ws) :
    step s = exec (decode .enc w) { s with encIn := ws, agenda := es } :=
  (step_turn ha).trans (takeTurn_cons (s := s.setAgenda es) (u := .enc) hw)

theorem step_encHolding_data (ha : s.agenda = .turn .enc :: es) (hw : s.encIn = dataSymbol b :: ws) :
    step (s.encHolding g) = execEncByte b (State.encHolding { s with encIn := ws, agenda := es } g) := by
  rw [step_enc_turn (s := s.encHolding g) ha hw, decode_enc_dataSymbol]
  rfl

theorem step_encHolding_end (hg : g.length ≤ 3) (ha : s.agenda = .turn .enc :: es) (hw : s.encIn = endSymbol :: ws) :
    step (s.encHolding g) = .next { s with
      encAcc := 0, encCnt := 0, encIn := ws, agenda := es,
      encOut := s.encOut ++ messageOutput (encodeMsg g) .ok } :=
  (step_enc_turn (s := s.encHolding g) ha hw).trans
    (execEncEnd_encHolding (s := { s with encIn := ws, agenda := es }) hg)

/-- With the bytes `g` of a group held, the rest of the message is encoded as if `g` stood before it. -/
theorem runsTo_encHolding (bs : List Byte) (hg : g.length ≤ 3) (hw : s.encIn = messageSymbols bs ++ ws)
    (ha : s.agenda = turns .enc (bs.length + 1) es) :
    RunsTo (bs.length + 1) (s.encHolding g) { s with
      encAcc := 0, encCnt := 0, encIn := ws, agenda := es,
      encOut := s.encOut ++ messageOutput (encodeMsg (g ++ bs)) .ok } := by
  induction bs generalizing s g with
  | nil =>
    rw [List.append_nil]
    exact .succ (step_encHolding_end hg ha hw) (.zero _)
  | cons b bs ih =>
    have hstep := step_encHolding_data (g := g) ha hw
    have hlen : (g ++ [b]).length = g.length + 1 := List.length_append
    rw [List.append_cons g b bs]
    rcases Nat.lt_or_eq_of_le hg with h3 | h3
    · rw [execEncByte_encHolding_short h3] at hstep
      exact .succ hstep (ih (by omega) rfl rfl)
    · rw [execEncByte_encHolding_full h3] at hstep
      rw [encodeMsg_append (by omega), messageOutput_append, ← List.append_assoc]
      exact .succ hstep (ih (Nat.zero_le 3) rfl rfl)

/-- Settles O41: at the reset values the encoder holds an empty group, before the message and after it. -/
theorem encoderRunIsEncode : Obligations.EncoderRunIsEncode := by
  intro bs rest es s hs hw ha
  have hrun := runsTo_encHolding (g := []) bs (by decide) hw ha
  rw [encHolding_nil hs] at hrun
  obtain ⟨hacc, hcnt⟩ := hs
  rwa [hacc, hcnt]

end EncoderRun

section DecoderRun

variable {s : State} {p : Pass} {c : Byte} {ws : List Symbol} {es : List Event}

/-! ### The decoder's registers hold a pass -/

theorem pending_of_ok (hf : p.failed = .none) : p.pending = p.ds := if_pos hf

theorem pending_of_failed (hf : p.failed ≠ .none) : p.pending = [] := if_neg hf

theorem pending_bounds (h : p.Wf) : p.pending.length ≤ 4 ∧ value p.pending < 85 ^ p.pending.length := by
  by_cases hf : p.failed = .none
  · rw [pending_of_ok hf]; exact ⟨h.length_le, value_lt h.digit_lt⟩
  · rw [pending_of_failed hf]; exact ⟨Nat.zero_le 4, Nat.one_pos⟩

theorem decHolding_decCnt (h : p.Wf) : (s.decHolding p).decCnt.toNat = p.pending.length := by
  obtain ⟨hlen, -⟩ := pending_bounds h
  rw [State.decHolding, BitVec.toNat_ofNat, Nat.mod_eq_of_lt (by omega)]

theorem decHolding_decAcc (h : p.Wf) : (s.decHolding p).decAcc.toNat = value p.pending := by
  obtain ⟨hlen, hval⟩ := pending_bounds h
  have hpow : 85 ^ p.pending.length ≤ 85 ^ 4 := Nat.pow_le_pow_right (by decide) hlen
  rw [State.decHolding, BitVec.toNat_ofNat, Nat.mod_eq_of_lt (by omega)]

theorem decHolding_decInv (h : p.Wf) : (s.decHolding p).DecInv := by
  obtain ⟨hlen, hval⟩ := pending_bounds h
  rw [State.DecInv, decHolding_decCnt h, decHolding_decAcc h]
  refine ⟨hlen, hval, fun (hf : p.failed ≠ .none) => ?_, h.not_truncated⟩
  rw [State.decHolding, pending_of_failed hf]
  exact ⟨rfl, rfl⟩

theorem decHolding_decCnt_eq_zero (h : p.Wf) (hf : p.failed = .none) : (s.decHolding p).decCnt = 0 ↔ p.ds = [] := by
  rw [← List.length_eq_zero_iff, ← pending_of_ok hf, ← decHolding_decCnt (s := s) h]
  exact BitVec.toNat_inj.symm

theorem decHolding_start (h : DecAtReset s) : s.decHolding Pass.start = s := by
  obtain ⟨hacc, hcnt, herr⟩ := h
  have : s.decHolding Pass.start = { s with decAcc := 0, decCnt := 0, decErr := .none, decOut := s.decOut ++ [] } := rfl
  rw [this, ← hacc, ← hcnt, ← herr, List.append_nil]

/-! ### The decoder's operations are the steps of the pass (R114 to R117, R142) -/

theorem emit_decHolding (s : State) (p : Pass) (bs : List Byte) :
    (s.decHolding p).emit .dec bs = s.decHolding { p with out := p.out ++ bs } := by
  simp only [State.decHolding, State.emit, State.setOut, State.out_dec, List.map_append, List.append_assoc]
  rfl

theorem raise_decHolding (s : State) (p : Pass) {e : Err} (he : e ≠ .none) (ds : List Nat) :
    (s.decHolding p).raise e = s.decHolding { p with ds := ds, failed := e } := by
  rw [State.decHolding, State.decHolding, pending_of_failed (p := { p with ds := ds, failed := e }) he]
  rfl

theorem setDec_decHolding (s : State) (hf : p.failed = .none) (ds : List Nat) :
    (s.decHolding p).setDec (value ds) ds.length = s.decHolding { p with ds := ds } := by
  rw [State.decHolding, State.decHolding, pending_of_ok (p := { p with ds := ds }) hf]
  rfl

/-- A digit at the registers is a digit of the pass (R115). -/
theorem acceptDigit_decHolding (h : p.Wf) (hf : p.failed = .none) (d : Nat) :
    acceptDigit d (s.decHolding p) = s.decHolding (p.digit d) := by
  have hcnt : (s.decHolding p).decCnt.toNat = p.ds.length := by rw [decHolding_decCnt h, pending_of_ok hf]
  have hval : (s.decHolding p).decAcc.toNat * 85 + d = value (p.ds ++ [d]) := by
    rw [decHolding_decAcc h, pending_of_ok hf, value_snoc]
  obtain ⟨h4, e⟩ | ⟨h4, ht, e⟩ | ⟨h4, ht, e⟩ := pass_digit_cases h.length_le d
  · have hlen : p.ds.length + 1 = (p.ds ++ [d]).length := by rw [List.length_append, List.length_singleton]
    rw [e, acceptDigit_of_lt (hcnt ▸ h4), hval, hcnt, hlen, setDec_decHolding s hf]
  · rw [e, acceptDigit_of_overflow (by omega) (hval ▸ ht), raise_decHolding s p (by decide)]
  · rw [e, acceptDigit_of_fits (by omega) (hval ▸ ht), hval, emit_decHolding]
    exact setDec_decHolding (p := { p with out := p.out ++ bytesOf (value (p.ds ++ [d])) }) s hf []

/-- A character at the decoder is a character of the pass. -/
theorem exec_decChar_decHolding (h : p.Wf) (s : State) (c : Byte) :
    exec (decChar c) (s.decHolding p) = .next (s.decHolding (p.char c)) := by
  have hi := decHolding_decInv (s := s) h
  by_cases hf : p.failed = .none
  case neg => rw [Pass.char_failed hf, exec_decChar_of_failed hi hf]
  case pos =>
    have herr : (s.decHolding p).decErr = .none := hf
    have hcnt := decHolding_decCnt_eq_zero (s := s) h hf
    obtain ⟨hc, e⟩ | ⟨hc, e⟩ | ⟨hc, hd, e⟩ | ⟨hc, hd, e⟩ | ⟨hc, e⟩ := pass_char_cases hf c
    · rw [e, decChar_of_ws hc]; rfl
    · rw [e, decChar_of_bad hc]
      refine (execDecBad_of_inv hi c).trans (congrArg _ ?_)
      rw [if_neg (not_not.2 herr), raise_decHolding s p (by decide) p.ds]
    · rw [e, decChar_of_z hc]
      refine (execDecZ_of_inv hi).trans (congrArg _ ?_)
      rw [if_neg (not_not.2 herr), if_pos (hcnt.2 hd), emit_decHolding]
    · rw [e, decChar_of_z hc]
      refine (execDecZ_of_inv hi).trans (congrArg _ ?_)
      rw [if_neg (not_not.2 herr), if_neg (hcnt.not.2 hd), raise_decHolding s p (by decide) p.ds]
    · rw [e, decChar_of_digit hc, ← acceptDigit_decHolding h hf]
      exact execDecDigit_of_ok hi herr (val_of_digit hc)

/-- The end marker at the decoder is the end of the pass (R118, R142). -/
theorem execDecEnd_decHolding (h : p.Wf) (s : State) :
    execDecEnd (s.decHolding p) = .next { s with
      decAcc := 0, decCnt := 0, decErr := .none, decOut := s.decOut ++ messageOutput p.finish.2 p.finish.1 } := by
  have hverdict : decVerdict p.failed p.pending.length (value p.pending) =
      decVerdict p.failed p.ds.length (value p.ds) := by
    by_cases hf : p.failed = .none
    · rw [pending_of_ok hf]
    · rw [decVerdict_failed hf, decVerdict_failed hf]
  rw [execDecEnd_of_verdict (decHolding_decInv h) rfl, decHolding_decCnt h, decHolding_decAcc h,
    finish_eq_decVerdict, messageOutput_append, ← List.append_assoc, ← hverdict]
  rfl

/-! ### The decoder's run (R140, R142) -/

theorem step_decHolding_data (h : p.Wf) (ha : s.agenda = .turn .dec :: es) (hw : s.decIn = dataSymbol c :: ws) :
    step (s.decHolding p) = .next (State.decHolding { s with decIn := ws, agenda := es } (p.char c)) := by
  rw [step_dec_turn (s := s.decHolding p) ha hw, decode_dec_dataSymbol]
  exact exec_decChar_decHolding h { s with decIn := ws, agenda := es } c

theorem step_decHolding_end (h : p.Wf) (ha : s.agenda = .turn .dec :: es) (hw : s.decIn = endSymbol :: ws) :
    step (s.decHolding p) = .next { s with
      decAcc := 0, decCnt := 0, decErr := .none, decIn := ws, agenda := es,
      decOut := s.decOut ++ messageOutput p.finish.2 p.finish.1 } :=
  (step_dec_turn (s := s.decHolding p) ha hw).trans
    (execDecEnd_decHolding h { s with decIn := ws, agenda := es })

/-- The characters of a text take the decoder through the pass of `decode`. -/
theorem runsTo_decHolding (h : p.Wf) (cs : List Byte) (hw : s.decIn = cs.map dataSymbol ++ ws)
    (ha : s.agenda = turns .dec cs.length es) :
    RunsTo cs.length (s.decHolding p)
      (State.decHolding { s with decIn := ws, agenda := es } (cs.foldl Pass.char p)) := by
  induction cs generalizing s p with
  | nil =>
    obtain rfl : s.decIn = ws := hw
    obtain rfl : s.agenda = es := ha
    exact .zero _
  | cons c cs ih =>
    exact .succ (step_decHolding_data h ha hw) (ih (pass_char_keeps_wf h c) rfl rfl)

/-- Settles O42: at the reset values the decoder holds the start of the pass, and the end marker gives the verdict. -/
theorem decoderRunIsDecode : Obligations.DecoderRunIsDecode := by
  intro cs rest es s hs hw ha
  rw [messageSymbols, List.append_assoc] at hw
  rw [turns_add] at ha
  have hpass := runsTo_decHolding pass_start_wf cs hw ha
  have hend := step_decHolding_end (s := { s with decIn := endSymbol :: rest, agenda := .turn .dec :: es })
    (foldl_char_wf pass_start_wf cs) rfl rfl
  rw [decHolding_start hs] at hpass
  obtain ⟨hacc, hcnt, herr⟩ := hs
  rw [hacc, hcnt, herr]
  exact hpass.trans (.succ hend (.zero _))

/-- Settles O56: at the reset values both units hold nothing, so an end marker emits nothing before its own. -/
theorem emptyMessages : Obligations.EmptyMessages := by
  refine ⟨rfl, rfl, rfl, fun s hs => ?_, fun s hs => ?_⟩
  · have h := execEncEnd_encHolding (s := s) (g := []) (by decide)
    rw [encHolding_nil hs] at h
    obtain ⟨hacc, hcnt⟩ := hs
    rw [hacc, hcnt]
    exact h
  · have h := execDecEnd_decHolding pass_start_wf s
    rw [decHolding_start hs] at h
    obtain ⟨hacc, hcnt, herr⟩ := hs
    rw [hacc, hcnt, herr]
    exact h

end DecoderRun

/-! ## Several messages, and both units (R144, R182, R184) -/

section SeveralMessages

variable {s t : State} {u : Agent} {ws : List Symbol} {es : List Event}

/-! ### Messages one after the other (R182, R184) -/

/-- From every state in which the unit is `Ready` it runs on a message, emits its `result` and is `Ready` again. -/
def RunsMessages (u : Agent) (Ready : State → Prop) (result : List Byte → Status × List Byte) : Prop :=
  ∀ (m : List Byte) (rest : List Symbol) (es : List Event) (s : State), Ready s →
    s.inp u = messageSymbols m ++ rest → s.agenda = turns u (m.length + 1) es →
    ∃ t, RunsTo (m.length + 1) s t ∧ Ready t ∧ t.inp u = rest ∧ t.agenda = es ∧
      t.out u = s.out u ++ messageOutput (result m).2 (result m).1

theorem encoder_runsMessages : RunsMessages .enc EncAtReset fun m => (.ok, encodeMsg m) :=
  fun m rest es s hs hw ha => ⟨_, encoderRunIsEncode m rest es s hs hw ha, hs, rfl, rfl, rfl⟩

theorem decoder_runsMessages : RunsMessages .dec DecAtReset decodeMsg :=
  fun m rest es s hs hw ha => ⟨_, decoderRunIsDecode m rest es s hs hw ha, hs, rfl, rfl, rfl⟩

/-- While a unit takes turns, what it is seen to emit is what joins its output. -/
theorem history_turns {k : Nat} (ha : s.agenda = turns u k es) (h : RunsTo k s t) :
    ∃ os, t.out u = s.out u ++ os ∧ history u k s = os.map .emitted := by
  induction k generalizing s with
  | zero =>
    obtain rfl := RunsTo.zero_iff.1 h
    exact ⟨[], (List.append_nil _).symm, rfl⟩
  | succ k ih =>
    have ha : s.agenda = .turn u :: turns u k es := ha
    obtain ⟨r, hs, hr⟩ := h.uncons
    have hag : r.agenda = turns u k es := takeTurn_agenda ((step_turn ha).symm.trans hs)
    obtain ⟨os, hos⟩ := step_extends_out (fun v es' => by rw [ha]; simp) hs u
    obtain ⟨os', hos', hhist⟩ := ih hag hr
    refine ⟨os ++ os', by rw [hos', ← hos, List.append_assoc], ?_⟩
    rw [history_succ hs, stepMarks_turn ha hs hos.symm, hhist, List.map_append]

theorem history_of_out_eq {k : Nat} {os : List OutSym} (ha : s.agenda = turns u k es) (h : RunsTo k s t)
    (ho : t.out u = s.out u ++ os) : history u k s = os.map .emitted := by
  obtain ⟨os', ho', hhist⟩ := history_turns ha h
  rw [hhist, List.append_cancel_left (ho'.symm.trans ho)]

/-- A unit that is ready again after each message handles a list of them as if each were the first. -/
theorem runs_of_messages {Ready : State → Prop} {result : List Byte → Status × List Byte}
    (hu : RunsMessages u Ready result) (ms : List (List Byte)) (hs : Ready s) (hw : s.inp u = ms.flatMap messageSymbols)
    (ha : s.agenda = turns u (ms.flatMap messageSymbols).length es) :
    ∃ t, RunsTo (ms.flatMap messageSymbols).length s t ∧ Ready t ∧
      runResults u (ms.flatMap messageSymbols).length s = ms.map result := by
  induction ms generalizing s with
  | nil => exact ⟨s, .zero s, hs, rfl⟩
  | cons m ms ih =>
    rw [List.flatMap_cons] at hw
    rw [List.flatMap_cons, List.length_append, length_messageSymbols] at ha ⊢
    rw [turns_add] at ha
    obtain ⟨r, hrun, hr, hrw, hra, hout⟩ := hu m _ _ s hs hw ha
    obtain ⟨t, hrun', ht, hresults⟩ := ih hr hrw hra
    refine ⟨t, hrun.trans hrun', ht, ?_⟩
    rw [runResults, history_add hrun, history_of_out_eq ha hrun hout, endedRuns_message, List.nil_append,
      List.map_cons, ← hresults, runResults]

/-- Settles O43: both units are at their reset values after each message, and so ready for the next. -/
theorem messagesAreIndependent : Obligations.MessagesAreIndependent :=
  fun ms _ _ => ⟨runs_of_messages encoder_runsMessages ms, runs_of_messages decoder_runsMessages ms⟩

/-! ### The round trip on the ports (R144, R186) -/

theorem runsTo_sends (ws : List Symbol) (ha : s.agenda = sends .dec ws es) :
    RunsTo ws.length s { s with decIn := s.decIn ++ ws, agenda := es } := by
  induction ws generalizing s with
  | nil =>
    obtain rfl : s.agenda = es := ha
    rw [List.append_nil]
    exact .zero s
  | cons w ws ih =>
    have hsend : step s = .next { s with decIn := s.decIn ++ [w], agenda := sends .dec ws es } := step_event ha
    rw [List.append_cons]
    exact .succ hsend (ih rfl)

/-- Settles O49: the run of ENC, the host's sends, and the run of DEC on `encode` of the message, which decodes to the
message. -/
theorem roundTripThroughBothUnits : Obligations.RoundTripThroughBothUnits := by
  intro bs es s henc hdec hin hout hdecIn ha
  have hencoded := encoderRunIsEncode bs [] _ s henc (by rw [hin, List.append_nil]) ha
  have hsent := hencoded.trans (runsTo_sends (messageSymbols (encodeMsg bs)) rfl)
  have hdecoded := hsent.trans (decoderRunIsDecode (encodeMsg bs) [] es _ hdec
    (by rw [hdecIn, List.nil_append, List.append_nil]) rfl)
  rw [decodeOfEncodeIsTheMessage, length_messageSymbols, hout, List.nil_append] at hdecoded
  rwa [hdecIn]

end SeveralMessages

end Sys2Proof

namespace Sys2Proof

open Machine

/-! ## Errors and waiting (60_exceptions.md): error entry, the codes, and a unit with nothing to consume -/

section Exceptions

/-! ### Error entry (R161, R163, R166) -/

/-- Settles O13: the branches that latch an error are error entry in DEC.DIGIT, DEC.Z and DEC.BAD; every other branch keeps
`dec.err`, and DEC.END clears it. -/
theorem whichOperationLatchesWhichError : Obligations.WhichOperationLatchesWhichError := by
  intro i s t hu h hchanged herr
  cases i with
  | encByte | encEnd => cases hu
  | decWs c => cases h; exact absurd rfl hchanged
  | decDigit c =>
    obtain ⟨-, d, hd, -, ⟨-, rfl⟩ | ⟨-, -, rfl⟩ | ⟨he, hc, ht, rfl⟩ | ⟨-, -, -, rfl⟩⟩ := execDecDigit_cases h
    · exact absurd rfl hchanged
    · exact absurd rfl hchanged
    · exact ⟨he, rfl, rfl, rfl, .inr ⟨rfl, BitVec.eq_of_toNat_eq hc, c, d, rfl, hd, ht⟩⟩
    · exact absurd rfl hchanged
  | decZ =>
    obtain ⟨-, ⟨-, rfl⟩ | ⟨-, -, rfl⟩ | ⟨he, hc, rfl⟩⟩ := execDecZ_cases h
    · exact absurd rfl hchanged
    · exact absurd rfl hchanged
    · exact ⟨he, rfl, rfl, rfl, .inl ⟨rfl, .inr ⟨rfl, hc⟩⟩⟩
  | decBad c =>
    obtain ⟨-, ⟨-, rfl⟩ | ⟨he, rfl⟩⟩ := execDecBad_cases c h
    · exact absurd rfl hchanged
    · exact ⟨he, rfl, rfl, rfl, .inl ⟨rfl, .inl ⟨c, rfl⟩⟩⟩
  | decEnd =>
    obtain ⟨-, rfl⟩ := execDecEnd_cases h
    exact absurd rfl herr

/-! ### The codes (R62, R164) -/

/-- One code serves `dec.err` and the status field. -/
theorem code_errStatus (e : Err) : e.status.code = e.code := by
  cases e <;> rfl

/-- Settles O15: the end marker's low bits are the code of its status. -/
theorem errorCodes : Obligations.ErrorCodes := by
  refine ⟨rfl, rfl, fun e => ?_⟩
  obtain ⟨-, hdone⟩ := outputSymbolWords
  obtain ⟨-, -, hstatus⟩ := hdone e.status
  rw [hstatus, code_errStatus]

/-! ### Waiting (R176) -/

/-- Settles O26: a turn with no symbol waiting is over when the event is off the agenda, and with an empty agenda the
arbiter finds no unit to run. -/
theorem waitingUnitKeepsItsState : Obligations.WaitingUnitKeepsItsState :=
  ⟨fun s u es ha hw => (step_turn ha).trans (takeTurn_nil ((inp_setAgenda s es u).trans hw)), fun _ => step_idle⟩

end Exceptions

end Sys2Proof

namespace Sys2Proof

open Machine

/-! ## Reset and hazards (70_reset_and_hazards.md): resets, the ends of runs, and the arbiter -/

namespace Machine

/-- How many symbols wait on the two input streams (R195). -/
def State.waiting (s : State) : Nat := s.encIn.length + s.decIn.length

theorem State.waiting_setInp {s : State} {u : Agent} {w : Symbol} {ws : List Symbol} (hw : s.inp u = w :: ws) :
    (s.setInp u ws).waiting + 1 = s.waiting := by
  cases u with
  | enc =>
    have hlen : s.encIn.length = ws.length + 1 := congrArg List.length hw
    simp only [waiting, setInp_enc_encIn, setInp_enc_decIn]
    omega
  | dec =>
    have hlen : s.decIn.length = ws.length + 1 := congrArg List.length hw
    simp only [waiting, setInp_dec_encIn, setInp_dec_decIn]
    omega

theorem State.waiting_eq_zero {s : State} (h : s.waiting = 0) : s.encIn = [] ∧ s.decIn = [] := by
  simpa [waiting] using h

theorem State.resetUnit_enc (s : State) (drop : Bool) :
    s.resetUnit .enc drop = { s with encAcc := 0, encCnt := 0, encIn := if drop then [] else s.encIn } := by
  cases drop <;> rfl

theorem State.resetUnit_dec (s : State) (drop : Bool) :
    s.resetUnit .dec drop =
      { s with decAcc := 0, decCnt := 0, decErr := .none, decIn := if drop then [] else s.decIn } := by
  cases drop <;> rfl

@[simp] theorem State.inp_setInp (s : State) (u : Agent) (ws : List Symbol) : (s.setInp u ws).inp u = ws := by
  cases u <;> rfl

@[simp] theorem State.out_setInp (s : State) (u v : Agent) (ws : List Symbol) : (s.setInp u ws).out v = s.out v := by
  cases u <;> cases v <;> rfl

@[simp] theorem State.out_setAgenda (s : State) (es : List Event) (u : Agent) : (s.setAgenda es).out u = s.out u := by
  cases u <;> rfl

end Machine

/-- The operations of an input end marker (R96, R118). -/
def Instr.endsMessage : Instr → Bool
  | .encEnd | .decEnd => true
  | .encByte _ | .decWs _ | .decDigit _ | .decZ | .decBad _ => false

section Hazards

variable {s t : State} {u : Agent} {i : Instr} {w : Symbol} {ws : List Symbol} {es : List Event}

/-! ### Reset (R180) -/

/-- Settles O17: the event's act on the state with the rest of the agenda. -/
theorem resetEventResetsOneUnit : Obligations.ResetEventResetsOneUnit :=
  fun s es drop => ⟨fun ha => (step_event ha).trans (congrArg _ (State.resetUnit_enc (s.setAgenda es) drop)),
    fun ha => (step_event ha).trans (congrArg _ (State.resetUnit_dec (s.setAgenda es) drop))⟩

/-- A reset that keeps the queued input touches no stream. -/
theorem step_reset_keep {Ready : State → Prop} (hready : ∀ s : State, Ready (s.resetUnit u false))
    (ha : s.agenda = .reset u false :: es) :
    ∃ r, step s = .next r ∧ Ready r ∧ r.inp u = s.inp u ∧ r.out u = s.out u ∧ r.agenda = es := by
  refine ⟨_, step_event ha, hready (s.setAgenda es), ?_⟩
  cases u <;> exact ⟨rfl, rfl, rfl⟩

/-! ### What a turn leaves on the streams and the agenda (R40, R48) -/

/-- No operation touches an input stream or the agenda. -/
theorem exec_keeps_inputs (h : exec i s = .next t) :
    t.encIn = s.encIn ∧ t.decIn = s.decIn ∧ t.agenda = s.agenda := by
  cases hu : i.agent with
  | enc =>
    obtain ⟨-, -, -, hei, hdi, -, hag, -⟩ := exec_encFrame hu h
    exact ⟨hei, hdi, hag⟩
  | dec =>
    obtain ⟨-, -, hei, hdi, -, hag, -⟩ := exec_decFrame hu h
    exact ⟨hei, hdi, hag⟩

theorem exec_inp (h : exec i s = .next t) (u : Agent) : t.inp u = s.inp u := by
  obtain ⟨hei, hdi, -⟩ := exec_keeps_inputs h
  cases u with
  | enc => exact hei
  | dec => exact hdi

/-! ### The arbiter consumes what waits (R195) -/

theorem takeTurn_waiting (hw : s.inp u ≠ []) (h : takeTurn u s = .next t) : t.waiting + 1 = s.waiting := by
  obtain ⟨hnil, -⟩ | ⟨w, ws, hcons, hx⟩ := takeTurn_cases h
  · exact absurd hnil hw
  · obtain ⟨hei, hdi, -⟩ := exec_keeps_inputs hx
    rw [← State.waiting_setInp hcons, State.waiting, State.waiting, hei, hdi]

/-- With an empty agenda a step consumes one of the symbols that wait. -/
theorem step_waiting (hi : s.Inv) (ha : s.agenda = []) (hpos : s.waiting ≠ 0) :
    ∃ t, step s = .next t ∧ t.agenda = [] ∧ t.waiting + 1 = s.waiting := by
  have hsome : s.encIn ≠ [] ∨ s.decIn ≠ [] := by
    by_contra! hnone
    exact hpos (by simp [State.waiting, hnone])
  obtain ⟨u, n, hu, hstep⟩ := step_free ha hsome
  obtain ⟨t, ht⟩ := takeTurn_completes (s := { s with tick := n }) hi u
  have hin : State.inp { s with tick := n } u ≠ [] := by cases u <;> exact hu
  exact ⟨t, hstep.trans ht, (takeTurn_agenda ht).trans ha, takeTurn_waiting (s := { s with tick := n }) hin ht⟩

/-- Settles O24: by induction on the number of symbols that wait, one of which each step consumes. -/
theorem waitingSymbolsAreConsumed : Obligations.WaitingSymbolsAreConsumed := by
  intro s hi ha
  rw [← State.waiting]
  induction hn : s.waiting generalizing s with
  | zero =>
    obtain ⟨hei, hdi⟩ := State.waiting_eq_zero hn
    exact ⟨s, .zero s, hei, hdi, hi⟩
  | succ n ih =>
    obtain ⟨r, hs, hra, hr⟩ := step_waiting hi ha (by omega)
    obtain ⟨t, hrun, ht⟩ := ih r (step_keeps_inv hi hs) hra (by omega)
    exact ⟨t, .succ hs hrun, ht⟩

/-! ### A run ends with its end marker (R184) -/

theorem endsMessage_decode (u : Agent) (w : Symbol) : (decode u w).endsMessage = eos w := by
  cases h : eos w with
  | true => cases u <;> rw [decode_of_eos _ h] <;> rfl
  | false =>
    cases u with
    | enc => rw [decode_enc_of_data h]; rfl
    | dec =>
      rw [decode_dec_of_data h]
      obtain ⟨-, e⟩ | ⟨-, e⟩ | ⟨-, e⟩ | ⟨-, e⟩ := decChar_cases (dataBits w) <;> rw [e] <;> rfl

/-- An operation appends data symbols, and after them an end marker just when it is the one of an end marker (R47). -/
theorem exec_out (h : exec i s = .next t) : ∃ (ds : List Byte) (st : Status),
    t.out i.agent = s.out i.agent ++ if i.endsMessage then messageOutput ds st else ds.map .data := by
  obtain ⟨ds, ends, hout, hcount⟩ := emissionCounts i s t h
  rw [List.append_assoc] at hout
  cases i with
  | encEnd =>
    obtain ⟨-, rfl⟩ := hcount
    exact ⟨ds, .ok, hout⟩
  | decEnd =>
    obtain ⟨-, st, rfl⟩ := hcount
    exact ⟨ds, st, hout⟩
  | encByte | decWs | decDigit | decZ | decBad =>
    obtain ⟨-, rfl⟩ := hcount
    rw [List.append_nil] at hout
    exact ⟨ds, .ok, hout⟩

/-- What is left, and what is emitted, when a unit's turn at the head of the agenda consumes a symbol. -/
theorem step_turn_cons (ha : s.agenda = .turn u :: es) (hw : s.inp u = w :: ws) (hs : step s = .next t) :
    t.inp u = ws ∧ t.agenda = es ∧ ∃ (ds : List Byte) (st : Status),
      t.out u = s.out u ++ if eos w then messageOutput ds st else ds.map .data := by
  rw [step_turn ha, takeTurn_cons ((inp_setAgenda s es u).trans hw)] at hs
  obtain ⟨-, -, hag⟩ := exec_keeps_inputs hs
  have hout := exec_out hs
  obtain ⟨hagent, -⟩ := decode_agent_wellFormed u w
  rw [hagent, endsMessage_decode, State.out_setInp, State.out_setAgenda] at hout
  exact ⟨(exec_inp hs u).trans (State.inp_setInp _ u ws), hag.trans (State.setInp_agenda _ u ws), hout⟩

/-- Settles O44: what a turn appends are its marks, which end the run or join it; a reset is a mark of its own. -/
theorem runEndsWithItsEndMarker : Obligations.RunEndsWithItsEndMarker := by
  intro u s t es
  refine ⟨fun w ws ha hw hs => ?_, fun drop ha bs ms => ?_⟩
  · obtain ⟨-, -, ds, st, hout⟩ := step_turn_cons ha hw hs
    refine ⟨ds, st, hout, fun bs ms => ?_⟩
    rw [stepMarks_turn ha hs hout]
    cases eos w with
    | true => exact endedRuns_message bs ds st ms
    | false => exact endedRuns_data bs ds ms
  · rw [stepMarks_reset ha]
    exact endedRuns_reset bs ms

theorem endedRuns_data_only (bs cs : List Byte) : endedRuns bs ((cs.map OutSym.data).map Mark.emitted) = [] := by
  rw [← List.append_nil (List.map _ _), endedRuns_data, endedRuns_nil]

theorem endedRuns_message_only (bs cs : List Byte) (st : Status) :
    endedRuns bs ((messageOutput cs st).map Mark.emitted) = [(st, bs ++ cs)] := by
  rw [← List.append_nil (List.map _ _), endedRuns_message, endedRuns_nil]

/-! ### Messages without an end marker (R184) -/

/-- Data symbols, a turn for each: all are consumed, and data symbols alone are emitted. -/
theorem runsTo_dataSymbols (cs : List Byte) (hi : s.Inv) (hw : s.inp u = cs.map dataSymbol ++ ws)
    (ha : s.agenda = turns u cs.length es) :
    ∃ (t : State) (ds : List Byte), RunsTo cs.length s t ∧ t.Inv ∧ t.inp u = ws ∧ t.agenda = es ∧
      t.out u = s.out u ++ ds.map .data := by
  induction cs generalizing s with
  | nil => exact ⟨s, [], .zero s, hi, hw, ha, (List.append_nil _).symm⟩
  | cons c cs ih =>
    obtain ⟨r, hs⟩ := step_completes hi
    obtain ⟨hrw, hra, ds, st, hro⟩ := step_turn_cons ha hw hs
    rw [eos_dataSymbol, if_neg Bool.false_ne_true] at hro
    obtain ⟨t, ds', hrun, ht, htw, hta, hto⟩ := ih (step_keeps_inv hi hs) hrw hra
    exact ⟨t, ds ++ ds', .succ hs hrun, ht, htw, hta, by rw [hto, hro, List.map_append, List.append_assoc]⟩

/-- Settles O45: the history is of data symbols alone, which end no run. -/
theorem messageWithoutEndHasNoResult : Obligations.MessageWithoutEndHasNoResult := by
  intro u cs bs rest es s hi hw ha
  obtain ⟨t, ds, hrun, ht, htw, hta, hto⟩ := runsTo_dataSymbols cs hi hw ha
  refine ⟨t, hrun, ht, htw, hta, ?_⟩
  rw [history_of_out_eq ha hrun hto, endedRuns_data_only]

/-! ### A reset in mid-message (R180, R184, R194) -/

/-- A unit that a reset makes ready handles the message after the reset as if nothing had come before. -/
theorem runs_after_reset {Ready : State → Prop} {result : List Byte → Status × List Byte}
    (hu : RunsMessages u Ready result) (hready : ∀ s : State, Ready (s.resetUnit u false)) (cut m bs : List Byte)
    (hi : s.Inv) (hw : s.inp u = cut.map dataSymbol ++ messageSymbols m ++ ws)
    (ha : s.agenda = turns u cut.length (.reset u false :: turns u (m.length + 1) es)) :
    ∃ (t : State) (lost : List Byte), RunsTo (cut.length + 1 + (m.length + 1)) s t ∧ t.inp u = ws ∧
      t.out u = s.out u ++ lost.map OutSym.data ++ messageOutput (result m).2 (result m).1 ∧
      endedRuns bs (history u (cut.length + 1 + (m.length + 1)) s) = [result m] := by
  rw [List.append_assoc] at hw
  obtain ⟨q, lost, hcut, -, hqw, hqa, hqo⟩ := runsTo_dataSymbols cut hi hw ha
  obtain ⟨r, hreset, hr, hrw, hro, hra⟩ := step_reset_keep hready hqa
  obtain ⟨t, hmsg, -, htw, -, hto⟩ := hu m ws es r hr (hrw.trans hqw) hra
  refine ⟨t, lost, (hcut.trans (.succ hreset (.zero r))).trans hmsg, htw, by rw [hto, hro, hqo], ?_⟩
  rw [Nat.add_assoc, history_add hcut, Nat.add_comm 1, history_succ hreset, history_of_out_eq ha hcut hqo,
    stepMarks_reset hqa, history_of_out_eq hra hmsg hto, endedRuns_data, List.singleton_append, endedRuns_reset,
    endedRuns_message_only, List.nil_append]

/-- Settles O46: the reset puts the unit at its reset values, where it is ready for a message. -/
theorem resetAbortsTheRunInProgress : Obligations.ResetAbortsTheRunInProgress := by
  intro u cut m bs rest es s hi hw ha
  cases u with
  | enc => exact runs_after_reset encoder_runsMessages (fun _ => ⟨rfl, rfl⟩) cut m bs hi hw ha
  | dec => exact runs_after_reset decoder_runsMessages (fun _ => ⟨rfl, rfl, rfl⟩) cut m bs hi hw ha

end Hazards

end Sys2Proof
